-- ==== Sys2Proof/Word.lean ====
section
/-! DEFINITION. The two widths of the machine: a Word (R6) and a byte of the memory array (R46). -/

namespace Sys2Proof

/-- The 16-bit unsigned Word: registers, memory words, addresses and immediates (R6, R7). -/
abbrev Word := BitVec 16

/-- One byte of the memory array (R46) and the opcode byte (R10). -/
abbrev Byte := BitVec 8

/-- A 4-bit register-selector field (R67, R71). -/
abbrev Nibble := BitVec 4

end Sys2Proof
end

