-- ==== Sys2Proof/Syntax.lean ====
section
/-! DEFINITION. The instructions (30_encoding.md R69, R70, R74): one constructor of `Instr` per row of
spec/opcode_table.json, and the registers an instruction can name. -/

namespace Sys2Proof

/-- The register-file entries a register operand can name (R34, R71): entry 0, ip, is none of them, so an instruction
with an illegal register operand cannot be written. -/
inductive Reg where
  | sp | bp | ac | gp1 | gp2 | gp3 | gp4
deriving DecidableEq, Repr

/-- The four formats of R69. -/
inductive Format where
  | n | rw | rr | w
deriving DecidableEq, Repr

/-- The fourteen known opcodes (R74). -/
inductive Opcode where
  | lrm | lra | srm | mvr | add | sub | mul | div | cmp | jmp | je | jne | sys | hlt
deriving DecidableEq, Repr

/-- The instructions, operands in the order of the source's Operands column (R27, R70). -/
inductive Instr where
  | lrm (d : Reg) (addr : Word)
  | lra (d : Reg) (imm : Word)
  | srm (src : Reg) (addr : Word)
  | mvr (src d : Reg)
  | add (a b : Reg)
  | sub (a b : Reg)
  | mul (a b : Reg)
  | div (a b : Reg)
  | cmp (a b : Reg)
  | jmp (addr : Word)
  | je (addr : Word)
  | jne (addr : Word)
  | sys
  | hlt
deriving DecidableEq, Repr

/-- The opcode of an instruction. -/
def Instr.opcode : Instr → Opcode
  | .lrm _ _ => .lrm
  | .lra _ _ => .lra
  | .srm _ _ => .srm
  | .mvr _ _ => .mvr
  | .add _ _ => .add
  | .sub _ _ => .sub
  | .mul _ _ => .mul
  | .div _ _ => .div
  | .cmp _ _ => .cmp
  | .jmp _ => .jmp
  | .je _ => .je
  | .jne _ => .jne
  | .sys => .sys
  | .hlt => .hlt

end Sys2Proof
end

