-- ==== Sys2Proof/WellFormed.lean ====
section
/-! DEFINITION. When a first word is well formed (R66 to R74), said of its fields alone, beside the decoder and not
through it. A term of `Instr` needs no check: its operands are registers that R71 allows, by type. What can be ill
formed is the word it comes from. -/

namespace Sys2Proof

/-- The three fields of a first word (R67). -/
structure Fields where
  ra : Nibble
  rb : Nibble
  op : Byte
deriving DecidableEq, Repr

/-- legal(r) of R78: a selector that names a register an operand may use. -/
def Nibble.legal (r : Nibble) : Bool := decide (1 ≤ r.toNat) && decide (r.toNat ≤ 7)

/-- The format of an opcode byte (R69, R74); none for the 242 unknown bytes. -/
def Fields.format (f : Fields) : Option Format :=
  if f.op.toNat < 1 then none
  else if f.op.toNat ≤ 3 then some .rw
  else if f.op.toNat ≤ 9 then some .rr
  else if f.op.toNat ≤ 12 then some .w
  else if f.op.toNat ≤ 14 then some .n
  else none

/-- Check: the opcode byte is one of 0x01 to 0x0E (R75). -/
def Fields.opcodeKnown (f : Fields) : Bool := f.format.isSome

/-- Check: every selector the format uses names a register (R71). -/
def Fields.selectorsLegal (f : Fields) : Bool :=
  match f.format with
  | some .rw => Nibble.legal f.ra
  | some .rr => Nibble.legal f.ra && Nibble.legal f.rb
  | some .w | some .n | none => true

/-- Check: every field the format reserves is 0000 (R69, R72). -/
def Fields.reservedClear (f : Fields) : Bool :=
  match f.format with
  | some .rw => f.rb == 0#4
  | some .w | some .n => f.ra == 0#4 && f.rb == 0#4
  | some .rr | none => true

/-- A well-formed first word: none of R75, R71, R72 stops its decoding. -/
def Fields.wellFormed (f : Fields) : Bool := f.opcodeKnown && f.selectorsLegal && f.reservedClear

/-- How many words the instruction has, from its format alone (R66, R69, R77). -/
def Format.words : Format → Nat
  | .n | .rr => 1
  | .rw | .w => 2

end Sys2Proof
end

