-- ==== Sys2Proof/Decode.lean ====
section
/-! DEFINITION. Bytes to words (big-endian, R48), the total decoder (R66 to R78), then the encoder written from the same
encoding tables (R67 to R74). -/

namespace Sys2Proof

/-- Bits 15:8 of a word: the byte at byte offset 2a (R48). -/
def hiByte (w : Word) : Byte := w.extractLsb' 8 8

/-- Bits 7:0 of a word: the byte at byte offset 2a + 1 (R48). -/
def loByte (w : Word) : Byte := w.extractLsb' 0 8

/-- The word of two bytes, the high byte first (R48). -/
def joinBytes (hi lo : Byte) : Word := hi ++ lo

/-- w0[15:12] (R67). -/
def raField (w0 : Word) : Nibble := w0.extractLsb' 12 4

/-- w0[11:8] (R67). -/
def rbField (w0 : Word) : Nibble := w0.extractLsb' 8 4

/-- w0[7:0], the opcode byte (R67). -/
def opField (w0 : Word) : Byte := w0.extractLsb' 0 8

/-- The three fields of a first word (R67). -/
def fieldsOf (w0 : Word) : Fields := ⟨raField w0, rbField w0, opField w0⟩

/-- Why a word list is no instruction. -/
inductive DecodeError where
  /-- The opcode byte is not one of 0x01 to 0x0E (R75); raises UnknownOpcode. -/
  | unknownOpcode (byte : Byte)
  /-- An illegal selector or a reserved field that is not 0000 in w0 (R71, R72); raises IllegalOperand. -/
  | illegalOperand (word : Word)
  /-- The list ends before the instruction does. Of lists only: in memory the missing word is out of bounds (R79). -/
  | truncated
deriving DecidableEq, Repr

/-- What a first word decodes to: a whole one-word instruction, or a two-word one that awaits its operand word. -/
inductive Head where
  | whole (i : Instr)
  | lrm (d : Reg)
  | lra (d : Reg)
  | srm (src : Reg)
  | jmp
  | je
  | jne
deriving DecidableEq, Repr

/-- The opcode map (R74). -/
def Opcode.ofByte (b : Byte) : Option Opcode :=
  match b.toNat with
  | 0x01 => some .lrm
  | 0x02 => some .lra
  | 0x03 => some .srm
  | 0x04 => some .mvr
  | 0x05 => some .add
  | 0x06 => some .sub
  | 0x07 => some .mul
  | 0x08 => some .div
  | 0x09 => some .cmp
  | 0x0A => some .jmp
  | 0x0B => some .je
  | 0x0C => some .jne
  | 0x0D => some .sys
  | 0x0E => some .hlt
  | _ => none

/-- The register a selector names (R71); none for 0 (ip) and 8 to 15. -/
def Reg.ofSelector (r : Nibble) : Option Reg :=
  match r.toNat with
  | 1 => some .sp
  | 2 => some .bp
  | 3 => some .ac
  | 4 => some .gp1
  | 5 => some .gp2
  | 6 => some .gp3
  | 7 => some .gp4
  | _ => none

/-- Format RW (R69): a register in ra, rb reserved. -/
def headRW (mk : Reg → Head) (ra rb : Nibble) : Option Head :=
  if rb = 0#4 then (Reg.ofSelector ra).map mk else none

/-- Format RR (R69): registers in ra and rb. -/
def headRR (mk : Reg → Reg → Instr) (ra rb : Nibble) : Option Head :=
  match Reg.ofSelector ra, Reg.ofSelector rb with
  | some a, some b => some (.whole (mk a b))
  | _, _ => none

/-- Formats N and W (R69): ra and rb reserved. -/
def headBare (h : Head) (ra rb : Nibble) : Option Head :=
  if ra = 0#4 ∧ rb = 0#4 then some h else none

/-- The operand checks of R78, opcode by opcode; none raises IllegalOperand. -/
def decodeOperands (op : Opcode) (ra rb : Nibble) : Option Head :=
  match op with
  | .lrm => headRW .lrm ra rb
  | .lra => headRW .lra ra rb
  | .srm => headRW .srm ra rb
  | .mvr => headRR .mvr ra rb
  | .add => headRR .add ra rb
  | .sub => headRR .sub ra rb
  | .mul => headRR .mul ra rb
  | .div => headRR .div ra rb
  | .cmp => headRR .cmp ra rb
  | .jmp => headBare .jmp ra rb
  | .je => headBare .je ra rb
  | .jne => headBare .jne ra rb
  | .sys => headBare (.whole .sys) ra rb
  | .hlt => headBare (.whole .hlt) ra rb

/-- decode(w0) of R78: the opcode first, then its operands; total over every word (R75, R76). -/
def decodeHead (w0 : Word) : Except DecodeError Head :=
  match Opcode.ofByte (opField w0) with
  | none => .error (.unknownOpcode (opField w0))
  | some op =>
    match decodeOperands op (raField w0) (rbField w0) with
    | none => .error (.illegalOperand w0)
    | some h => .ok h

/-- The instruction of a head and its operand word w1 (R68, R73); a one-word head takes none. -/
def Head.complete (h : Head) (w1 : Word) : Instr :=
  match h with
  | .whole i => i
  | .lrm d => .lrm d w1
  | .lra d => .lra d w1
  | .srm src => .srm src w1
  | .jmp => .jmp w1
  | .je => .je w1
  | .jne => .jne w1

/-- How many words the instruction has (R66, R77). -/
def Head.words : Head → Nat
  | .whole _ => 1
  | .lrm _ | .lra _ | .srm _ | .jmp | .je | .jne => 2

/-- Decoding a list of words: the instruction and the words after it. -/
def decodeWords (ws : List Word) : Except DecodeError (Instr × List Word) :=
  match ws with
  | [] => .error .truncated
  | w0 :: rest =>
    match decodeHead w0 with
    | .error e => .error e
    | .ok h =>
      if h.words = 1 then .ok (h.complete 0#16, rest)
      else
        match rest with
        | [] => .error .truncated
        | w1 :: rest' => .ok (h.complete w1, rest')

/-- Decoding a list of bytes as memory holds them, each word's high byte first (R48): the instruction and the bytes
after it. -/
def decodeBytes (bs : List Byte) : Except DecodeError (Instr × List Byte) :=
  match bs with
  | b0 :: b1 :: rest =>
    match decodeHead (joinBytes b0 b1) with
    | .error e => .error e
    | .ok h =>
      if h.words = 1 then .ok (h.complete 0#16, rest)
      else
        match rest with
        | b2 :: b3 :: rest' => .ok (h.complete (joinBytes b2 b3), rest')
        | _ => .error .truncated
  | _ => .error .truncated

/-- The selector of a register (R71). -/
def Reg.selector : Reg → Nibble
  | .sp => 1#4
  | .bp => 2#4
  | .ac => 3#4
  | .gp1 => 4#4
  | .gp2 => 5#4
  | .gp3 => 6#4
  | .gp4 => 7#4

/-- The opcode byte (R74). -/
def Opcode.byte : Opcode → Byte
  | .lrm => 0x01#8
  | .lra => 0x02#8
  | .srm => 0x03#8
  | .mvr => 0x04#8
  | .add => 0x05#8
  | .sub => 0x06#8
  | .mul => 0x07#8
  | .div => 0x08#8
  | .cmp => 0x09#8
  | .jmp => 0x0A#8
  | .je => 0x0B#8
  | .jne => 0x0C#8
  | .sys => 0x0D#8
  | .hlt => 0x0E#8

/-- The fields of an instruction's first word (R69, R70). -/
def Instr.fields (i : Instr) : Fields :=
  match i with
  | .lrm d _ | .lra d _ | .srm d _ => ⟨d.selector, 0#4, i.opcode.byte⟩
  | .mvr a b | .add a b | .sub a b | .mul a b | .div a b | .cmp a b => ⟨a.selector, b.selector, i.opcode.byte⟩
  | .jmp _ | .je _ | .jne _ | .sys | .hlt => ⟨0#4, 0#4, i.opcode.byte⟩

/-- The first word with these fields (R67): ra in bits 15:12, rb in bits 11:8, the opcode in bits 7:0. -/
def Fields.word (f : Fields) : Word := f.ra ++ f.rb ++ f.op

/-- The operand word w1 of a two-word instruction (R68). -/
def Instr.operandWord : Instr → Option Word
  | .lrm _ w | .lra _ w | .srm _ w | .jmp w | .je w | .jne w => some w
  | .mvr _ _ | .add _ _ | .sub _ _ | .mul _ _ | .div _ _ | .cmp _ _ | .sys | .hlt => none

/-- How many words the instruction has (R66, R77). -/
def Instr.words (i : Instr) : Nat := if i.operandWord.isSome then 2 else 1

/-- The encoder: the words of an instruction (R67 to R74). -/
def encode (i : Instr) : List Word := i.fields.word :: i.operandWord.toList

/-- The bytes of a list of words as memory holds them (R48). -/
def wordsToBytes (ws : List Word) : List Byte := ws.flatMap fun w => [hiByte w, loByte w]

/-- The bytes of an instruction as memory holds them (R48, R87). -/
def encodeBytes (i : Instr) : List Byte := wordsToBytes (encode i)

/-- The two words of an instruction given as one number, bit 0 the least significant bit of the FIRST word, the second
word from bit 16 on; every bit from nbits up is 0. -/
def tableWords (nbits w : Nat) : Word × Word :=
  let v := w % 2 ^ nbits
  (BitVec.ofNat 16 v, BitVec.ofNat 16 (v / 65536))

/-- The host's question about an opcode-table row: the instruction the decoder reads from these bits, laid out in memory
order. -/
def decodeTableWord (nbits w : Nat) : Option Instr :=
  match decodeBytes (wordsToBytes [(tableWords nbits w).1, (tableWords nbits w).2]) with
  | .ok (i, _) => some i
  | .error _ => none

end Sys2Proof
end

