-- ==== Sys2Proof/Config.lean ====
section
/-! DEFINITION. The implementation parameters (00_scope.md R6 to R12) and the SYS hook's contract as a parameter
(R12, R104): its request, its outcomes, and the one free value of the model. -/

namespace Sys2Proof

/-- MEM_WORDS (R8). -/
abbrev Config.memWords : Nat := 4096

/-- MEM_BYTES (R8): two bytes a word. -/
abbrev Config.memBytes : Nat := 8192

/-- The one CPU_COUNT this spec specifies (R11). -/
abbrev Config.cpuCount : Nat := 1

/-- A SYS request (R104): the cpu id, the call number, the nine register and flag values, the memory contents. -/
structure SysRequest where
  cpuId : Nat
  callNumber : Word
  ip : Word
  sp : Word
  bp : Word
  ac : Word
  gp1 : Word
  gp2 : Word
  gp3 : Word
  gp4 : Word
  flags : Word
  mem : List Host.Cell
deriving DecidableEq, Repr

/-- The seven register values a hook returns (R104: sp, bp, ac, gp1..gp4; never ip, never flags). -/
structure HookRegs where
  sp : Word
  bp : Word
  ac : Word
  gp1 : Word
  gp2 : Word
  gp3 : Word
  gp4 : Word
deriving DecidableEq, Repr, Inhabited

/-- r[g] (R103). -/
def HookRegs.get (r : HookRegs) : Reg → Word
  | .sp => r.sp
  | .bp => r.bp
  | .ac => r.ac
  | .gp1 => r.gp1
  | .gp2 => r.gp2
  | .gp3 => r.gp3
  | .gp4 => r.gp4

/-- An outcome of the SYS hook (R104, R105). -/
inductive HookOutcome where
  /-- ok(r, B'): the new registers and the new memory image. The image is written as cells (byte offset, byte); a byte
  with no cell is 0x00, of two cells for one byte the later holds, and a cell outside the array is none (DESIGN CHOICE,
  log 4: every image of MEM_BYTES bytes is some such list, and every list is one image). -/
  | ok (regs : HookRegs) (image : List Host.Cell)
  /-- fail(code): raises SysFault(code, ip) (R113). -/
  | fail (code : Word)
  /-- The empty set of outcomes: the hook never returns (R105). -/
  | never
deriving DecidableEq, Repr, Inhabited

/-- FREE VALUE (log 1): what the external runtime answers to its n-th SYS request where the model's state names no
outcome for it. Nothing constrains it: it stands for any choice from the relation SYS_HOOK (R12, R104). -/
opaque Config.sysHook : Nat → SysRequest → HookOutcome

end Sys2Proof
end

