-- ==== Sys2Proof/Machine/State.lean ====
section
/-! DEFINITION. The state of the machine as plain data (10_state.md), its reset value (R45), and the reasons a step can
stop. -/

namespace Sys2Proof.Machine

/-- The memory array B[0 .. MEM_BYTES-1] (R46): cells (byte offset, byte), offsets strictly rising, none holding the
byte an unlisted offset reads as (`Memory.unlisted`, the reset contents 0x00 of R45). -/
abbrev Memory := List Host.Cell

/-- What the fault latch holds when fault_valid = 1 (R39): a kind of R108 with its info. -/
inductive LatchedFault where
  /-- The opcode byte and ip (R109). -/
  | unknownOpcode (byte : Byte) (address : Word)
  /-- The word address of the access that failed (R110). -/
  | outOfBoundsAccess (address : Word)
  /-- ip of the DIV (R111). -/
  | divisionByZero (address : Word)
  /-- w0 and ip (R112). -/
  | illegalOperand (word : Word) (address : Word)
  /-- The hook's code and ip of the SYS (R113). -/
  | sysFault (code : Word) (address : Word)
deriving DecidableEq, Repr

/-- Why the machine stops with no next state. The faults of R108 are none of these: taking one is a next state whose
latch is set (R117, log 5). -/
inductive Fault where
  /-- Raised by SYS when the runtime's outcome is `HookOutcome.never`: the hook never returns and the CPU is stuck at
  that SYS (R105). Safe: R105 gives the step no result (log 3). -/
  | sysHookBlocked
deriving DecidableEq, Repr

/-- What the model gives no meaning to. -/
inductive Refusal where
  /-- Raised by an arm of `exec` for an instruction that has no meaning yet; no arm is left that raises it. Safe. -/
  | notModelled (mnemonic : String)
  /-- Raised by `start` for a CPU count that is not 1: R11 and R126 refuse more than one. Safe (log 7). -/
  | cpuCountNotOne (count : Nat)
deriving DecidableEq, Repr

/-- Everything the spec gives the machine: the register file (R28), the flags register (R35), the fault latch (R39),
the CPU id (R41) and the memory array (R46); and the model's own two fields that carry the SYS hook (log 1). -/
structure State where
  /-- Register-file entry 0, the word address of the next instruction (R33). -/
  ip : Word
  /-- Entry 1 (R31). -/
  sp : Word
  /-- Entry 2 (R31). -/
  bp : Word
  /-- Entry 3 (R32). -/
  ac : Word
  /-- Entry 4. -/
  gp1 : Word
  /-- Entry 5. -/
  gp2 : Word
  /-- Entry 6. -/
  gp3 : Word
  /-- Entry 7. -/
  gp4 : Word
  /-- The flag latch: EQUAL is bit 0, HALT is bit 1, bits 15:2 are reserved (R35). -/
  flags : Word
  /-- The fault latch (R39): none is fault_valid = 0. -/
  fault : Option LatchedFault
  /-- The CPU's small numeric id (R41). -/
  cpuId : Nat
  /-- The memory array (R46). -/
  mem : Memory
  /-- The model's own: the outcomes the runtime is known to give to the next SYS requests, oldest first; once it is
  empty they are the free value `Config.sysHook` (log 1). -/
  hookScript : List HookOutcome
  /-- The model's own: how many SYS requests have returned ok, which makes each free value a fresh one (log 1). -/
  hookDraws : Nat
deriving DecidableEq, Repr

/-- The machine right after `start(1)` (R45, R130). The last two fields are the model's own (log 2, DESIGN CHOICE). -/
def State.reset : State where
  ip := 0x0000#16
  sp := 0x0000#16
  bp := 0x0000#16
  ac := 0x0000#16
  gp1 := 0x0000#16
  gp2 := 0x0000#16
  gp3 := 0x0000#16
  gp4 := 0x0000#16
  flags := 0x0000#16
  fault := none
  cpuId := 0
  mem := []
  hookScript := []
  hookDraws := 0

end Sys2Proof.Machine
end

