-- ==== Sys2Proof/Machine/Flags.lean ====
section
/-! DEFINITION. The flag latch (R35 to R38): its two defined bits, what writes them, and the reading of the word. -/

namespace Sys2Proof.Machine

/-- flags.EQUAL, bit 0 (R35). -/
def State.equal (s : State) : Bool := s.flags.getLsbD 0

/-- flags.HALT, bit 1 (R35): the `is_halted` output (R15, R37). -/
def State.halted (s : State) : Bool := s.flags.getLsbD 1

/-- Write EQUAL and no other bit (R36, R96). -/
def State.setEqual (s : State) (b : Bool) : State :=
  { s with flags := if b then s.flags ||| 0x0001#16 else s.flags &&& 0xFFFE#16 }

/-- Set HALT and write no other bit (R37, R106). -/
def State.setHalt (s : State) : State := { s with flags := s.flags ||| 0x0002#16 }

/-- The flags word as the snapshot and the SYS request read it: the reserved bits read as 0 (R35, log 9). -/
def State.readFlags (s : State) : Word := s.flags &&& 0x0003#16

end Sys2Proof.Machine
end

