-- ==== Sys2Proof/Machine/Ops.lean ====
section
/-! DEFINITION. The named operations the meanings are written with: the memory array and its access controller
(20_memory.md), the program counter mux (R83), the CPU status (R40), and taking a fault (R117), the machine's one
exception entry. There is no return from a fault (R119), so none stands beside it. -/

namespace Sys2Proof.Machine

/-- What a byte of the array that no cell lists reads as: the reset contents (R45). -/
def Memory.unlisted : Byte := 0x00#8

/-- B[k] (R46). -/
def Memory.readByte : Memory → Nat → Byte
  | [], _ => Memory.unlisted
  | c :: rest, k => if c.1 = k then c.2 else Memory.readByte rest k

/-- The array with no cell for k. -/
def Memory.erase (m : Memory) (k : Nat) : Memory := m.filter fun c => c.1 != k

/-- A cell for k put in its place by offset. -/
def Memory.insert : Memory → Nat → Byte → Memory
  | [], k, v => [(k, v)]
  | c :: rest, k, v => if k < c.1 then (k, v) :: c :: rest else c :: Memory.insert rest k v

/-- B[k] <- v (R46): the byte an unlisted offset reads as leaves no cell. -/
def Memory.writeByte (m : Memory) (k : Nat) (v : Byte) : Memory :=
  if v = Memory.unlisted then m.erase k else (m.erase k).insert k v

/-- The canonical form from offset lo on: offsets strictly rising, inside the array, no cell holding the unlisted byte. -/
def Memory.wfFrom : Nat → Memory → Bool
  | _, [] => true
  | lo, c :: rest =>
    decide (lo ≤ c.1) && decide (c.1 < Config.memBytes) && decide (c.2 ≠ Memory.unlisted) &&
      Memory.wfFrom (c.1 + 1) rest

/-- The canonical form of the memory array. -/
def Memory.wf (m : Memory) : Bool := m.wfFrom 0

/-- M[a] as a mathematical value (R21): bytes 2a and 2a + 1, the high byte first (R47, R48). -/
def Memory.wordAt (m : Memory) (a : Nat) : Word := joinBytes (m.readByte (2 * a)) (m.readByte (2 * a + 1))

/-- Both bytes of word a (R51). -/
def Memory.writeWord (m : Memory) (a : Nat) (v : Word) : Memory :=
  (m.writeByte (2 * a) (hiByte v)).writeByte (2 * a + 1) (loByte v)

/-- Whether word address a is inside the array (R49). -/
def inBounds (a : Word) : Bool := decide (a.toNat < Config.memWords)

/-- MemRead(a, 2) (R50). -/
def State.memRead (s : State) (a : Word) : Except LatchedFault Word :=
  if inBounds a then .ok (s.mem.wordAt a.toNat) else .error (.outOfBoundsAccess a)

/-- MemWrite(a, 2, v) (R51). -/
def State.memWrite (s : State) (a v : Word) : Except LatchedFault State :=
  if inBounds a then .ok { s with mem := s.mem.writeWord a.toNat v } else .error (.outOfBoundsAccess a)

/-- The bytes of a list written from byte offset k on (R56). -/
def Memory.writeBytes : Memory → Nat → List Byte → Memory
  | m, _, [] => m
  | m, k, b :: rest => Memory.writeBytes (m.writeByte k b) (k + 1) rest

/-- The memory image a list of cells denotes (`HookOutcome.ok`, log 4): MEM_BYTES bytes in canonical form. -/
def Memory.ofCells (cells : List Host.Cell) : Memory :=
  cells.foldl (fun m c => if c.1 < Config.memBytes then m.writeByte c.1 c.2 else m) []

/-- wrap16(n) = n mod 65536 (R23). -/
def wrap16 (n : Nat) : Word := BitVec.ofNat 16 n

/-- The program counter mux's sequential choice: ip <- wrap16(ip + len) (R83). -/
def State.advance (s : State) (len : Nat) : State := { s with ip := wrap16 (s.ip.toNat + len) }

/-- The program counter mux's jump choice: ip <- addr (R83). -/
def State.jumpTo (s : State) (addr : Word) : State := { s with ip := addr }

/-- The state after fault f is taken from s (R117): the latch set, every write of the step discarded, ip still the
address of the faulting instruction. -/
def State.latch (s : State) (f : LatchedFault) : State := { s with fault := some f }

/-- raise f (R23, R117): the step ends with the latch set. Taking a fault is a next state (log 5). -/
def raise (f : LatchedFault) (s : State) : Host.Outcome State Fault Refusal := .next (s.latch f)

/-- Commit or discard (R79): commit the step's writes, or take the fault it raised with none of them applied. -/
def State.commit (s : State) (r : Except LatchedFault State) : Host.Outcome State Fault Refusal :=
  match r with
  | .ok t => .next t
  | .error f => raise f s

/-- The CPU status (R40). -/
inductive Status where
  | running
  | halted
  | faulted (f : LatchedFault)
deriving DecidableEq, Repr

/-- The CPU status is a function of the state (R40): the latch comes before HALT (R116). -/
def State.status (s : State) : Status :=
  match s.fault with
  | some f => .faulted f
  | none => if s.halted then .halted else .running

/-- The kinds' numbers 1 to 5 (R108, D14). -/
def LatchedFault.kindNumber : LatchedFault → Nat
  | .unknownOpcode _ _ => 1
  | .outOfBoundsAccess _ => 2
  | .divisionByZero _ => 3
  | .illegalOperand _ _ => 4
  | .sysFault _ _ => 5

end Sys2Proof.Machine
end

