-- ==== Sys2Proof/Machine/Alu.lean ====
section
/-! DEFINITION. The ALU (41_arithmetic.md): unsigned, computed exactly on integers and narrowed by wrap16 (R97). -/

namespace Sys2Proof.Machine

/-- R92. -/
def aluAdd (a b : Word) : Word := wrap16 (a.toNat + b.toNat)

/-- R93: computed as (a + 65536 - b) mod 65536. -/
def aluSub (a b : Word) : Word := wrap16 (a.toNat + 65536 - b.toNat)

/-- R94: the low 16 bits of the unsigned product. -/
def aluMul (a b : Word) : Word := wrap16 (a.toNat * b.toNat)

/-- R95: the unsigned quotient, truncated; called with b ≠ 0 only. -/
def aluDiv (a b : Word) : Word := wrap16 (a.toNat / b.toNat)

end Sys2Proof.Machine
end

