-- ==== Sys2Proof/Machine/Operands.lean ====
section
/-! DEFINITION. The operand forms (R30, R70, R73): the register operand, read and written. An immediate operand is the
operand word itself, with no extension; an address operand is a word address, read by `State.memRead` and written by
`State.memWrite`, or a jump target taken as it is. -/

namespace Sys2Proof.Machine

/-- x[r] (R21, R28). -/
def State.reg (s : State) : Reg → Word
  | .sp => s.sp
  | .bp => s.bp
  | .ac => s.ac
  | .gp1 => s.gp1
  | .gp2 => s.gp2
  | .gp3 => s.gp3
  | .gp4 => s.gp4

/-- x[r] <- v (R21, R29). -/
def State.setReg (s : State) (r : Reg) (v : Word) : State :=
  match r with
  | .sp => { s with sp := v }
  | .bp => { s with bp := v }
  | .ac => { s with ac := v }
  | .gp1 => { s with gp1 := v }
  | .gp2 => { s with gp2 := v }
  | .gp3 => { s with gp3 := v }
  | .gp4 => { s with gp4 := v }

end Sys2Proof.Machine
end

