-- ==== Sys2Proof/Machine/Arithmetic.lean ====
section
/-! DEFINITION. Arithmetic and compare (41_arithmetic.md): ADD, SUB, MUL, DIV, CMP. Each writes its operand a alone
(R32) and no arithmetic flag (R38). -/

namespace Sys2Proof.Machine

/-- ADD a, b (R92). -/
def execAdd (a b : Reg) (s : State) : Host.Outcome State Fault Refusal :=
  .next ((s.setReg a (aluAdd (s.reg a) (s.reg b))).advance 1)

/-- SUB a, b (R93). -/
def execSub (a b : Reg) (s : State) : Host.Outcome State Fault Refusal :=
  .next ((s.setReg a (aluSub (s.reg a) (s.reg b))).advance 1)

/-- MUL a, b (R94). -/
def execMul (a b : Reg) (s : State) : Host.Outcome State Fault Refusal :=
  .next ((s.setReg a (aluMul (s.reg a) (s.reg b))).advance 1)

/-- DIV a, b (R95, R111). -/
def execDiv (a b : Reg) (s : State) : Host.Outcome State Fault Refusal :=
  if s.reg b = 0#16 then raise (.divisionByZero s.ip) s
  else .next ((s.setReg a (aluDiv (s.reg a) (s.reg b))).advance 1)

/-- CMP a, b (R96). -/
def execCmp (a b : Reg) (s : State) : Host.Outcome State Fault Refusal :=
  .next ((s.setEqual (s.reg a == s.reg b)).advance 1)

end Sys2Proof.Machine
end

