-- ==== Sys2Proof/Machine/Control.lean ====
section
/-! DEFINITION. Control transfer (42_control.md): JMP, JE, JNE. The target is not checked here: an out-of-bounds one
faults at the next fetch (R99). -/

namespace Sys2Proof.Machine

/-- JMP addr (R99). -/
def execJmp (addr : Word) (s : State) : Host.Outcome State Fault Refusal :=
  .next (s.jumpTo addr)

/-- JE addr (R100). -/
def execJe (addr : Word) (s : State) : Host.Outcome State Fault Refusal :=
  .next (if s.equal then s.jumpTo addr else s.advance 2)

/-- JNE addr (R101). -/
def execJne (addr : Word) (s : State) : Host.Outcome State Fault Refusal :=
  .next (if s.equal then s.advance 2 else s.jumpTo addr)

end Sys2Proof.Machine
end

