-- ==== Sys2Proof/Machine/DataTransfer.lean ====
section
/-! DEFINITION. Data transfer (40_data_transfer.md): LRM, LRA, SRM, MVR. -/

namespace Sys2Proof.Machine

/-- LRM d, addr (R88). -/
def execLrm (d : Reg) (addr : Word) (s : State) : Host.Outcome State Fault Refusal :=
  s.commit ((s.memRead addr).map fun v => (s.setReg d v).advance 2)

/-- LRA d, imm (R89). -/
def execLra (d : Reg) (imm : Word) (s : State) : Host.Outcome State Fault Refusal :=
  .next ((s.setReg d imm).advance 2)

/-- SRM src, addr (R90). -/
def execSrm (src : Reg) (addr : Word) (s : State) : Host.Outcome State Fault Refusal :=
  s.commit ((s.memWrite addr (s.reg src)).map fun t => t.advance 2)

/-- MVR src, d (R91). -/
def execMvr (src d : Reg) (s : State) : Host.Outcome State Fault Refusal :=
  .next ((s.setReg d (s.reg src)).advance 1)

end Sys2Proof.Machine
end

