-- ==== Sys2Proof/Machine/System.lean ====
section
/-! DEFINITION. System instructions (43_system.md): SYS with its hook's contract, and HLT. -/

namespace Sys2Proof.Machine

/-- The request SYS sends (R103, R104): the call number is x[ac]. -/
def State.sysRequest (s : State) : SysRequest where
  cpuId := s.cpuId
  callNumber := s.ac
  ip := s.ip
  sp := s.sp
  bp := s.bp
  ac := s.ac
  gp1 := s.gp1
  gp2 := s.gp2
  gp3 := s.gp3
  gp4 := s.gp4
  flags := s.readFlags
  mem := s.mem

/-- The outcome the runtime gives to the request of s: the next one the state names, else a free value (log 1). -/
def State.hookOutcome (s : State) : HookOutcome :=
  match s.hookScript with
  | o :: _ => o
  | [] => Config.sysHook s.hookDraws s.sysRequest

/-- ok(r, B') (R103): the seven registers and the memory image as the hook returns them; ip and flags are not the hook's
to write (R104). The outcome is used up. -/
def State.hookReturn (s : State) (r : HookRegs) (image : List Host.Cell) : State :=
  { s with
    sp := r.sp
    bp := r.bp
    ac := r.ac
    gp1 := r.gp1
    gp2 := r.gp2
    gp3 := r.gp3
    gp4 := r.gp4
    mem := Memory.ofCells image
    hookScript := s.hookScript.tail
    hookDraws := s.hookDraws + 1 }

/-- SYS (R103, R104): ok commits, fail raises SysFault(code, ip) (R113), and a hook that never returns leaves the CPU
stuck with no next state (R105, log 3). -/
def execSys (s : State) : Host.Outcome State Fault Refusal :=
  match s.hookOutcome with
  | .ok r image => .next ((s.hookReturn r image).advance 1)
  | .fail code => raise (.sysFault code s.ip) s
  | .never => .fault .sysHookBlocked

/-- HLT (R106): ip is not changed. -/
def execHlt (s : State) : Host.Outcome State Fault Refusal :=
  .next s.setHalt

end Sys2Proof.Machine
end

