-- ==== Sys2Proof/Machine/Dispatch.lean ====
section
/-! DEFINITION. One arm per constructor of Instr. -/

namespace Sys2Proof.Machine

def exec (i : Instr) (s : State) : Host.Outcome State Fault Refusal :=
  match i with
  | .lrm d addr => Sys2Proof.Machine.execLrm d addr s
  | .lra d imm => Sys2Proof.Machine.execLra d imm s
  | .srm src addr => Sys2Proof.Machine.execSrm src addr s
  | .mvr src d => Sys2Proof.Machine.execMvr src d s
  | .add a b => Sys2Proof.Machine.execAdd a b s
  | .sub a b => Sys2Proof.Machine.execSub a b s
  | .mul a b => Sys2Proof.Machine.execMul a b s
  | .div a b => Sys2Proof.Machine.execDiv a b s
  | .cmp a b => Sys2Proof.Machine.execCmp a b s
  | .jmp addr => Sys2Proof.Machine.execJmp addr s
  | .je addr => Sys2Proof.Machine.execJe addr s
  | .jne addr => Sys2Proof.Machine.execJne addr s
  | .sys => Sys2Proof.Machine.execSys s
  | .hlt => Sys2Proof.Machine.execHlt s

end Sys2Proof.Machine
end

