-- ==== Sys2Proof/Machine/Fetch.lean ====
section
/-! DEFINITION. The fetch unit and the decode stage of a step (R79), and placing an instruction where the next step
fetches it. -/

namespace Sys2Proof.Machine

/-- The fault a decode error raises for the first word at address ip (R78). `truncated` is of lists only: the fetch reads
the words it needs. -/
def decodeFault (e : DecodeError) (ip : Word) : LatchedFault :=
  match e with
  | .unknownOpcode byte => .unknownOpcode byte ip
  | .illegalOperand word => .illegalOperand word ip
  | .truncated => .outOfBoundsAccess ip

/-- Fetch of w1 (R79), for a two-word head only: the word at wrap16(ip + 1). -/
def State.fetchOperand (s : State) (h : Head) : Except LatchedFault Instr :=
  if h.words = 1 then .ok (h.complete 0#16)
  else
    match s.memRead (wrap16 (s.ip.toNat + 1)) with
    | .error f => .error f
    | .ok w1 => .ok (h.complete w1)

/-- Fetch and decode (R79): the instruction at ip, or the first fault in the order of R116. -/
def State.fetch (s : State) : Except LatchedFault Instr :=
  match s.memRead s.ip with
  | .error f => .error f
  | .ok w0 =>
    match decodeHead w0 with
    | .error e => .error (decodeFault e s.ip)
    | .ok h => s.fetchOperand h

/-- A word stored at a word address inside the array; outside it nothing is stored. -/
def State.placeWord (s : State) (a v : Word) : State :=
  if inBounds a then { s with mem := s.mem.writeWord a.toNat v } else s

/-- The two words of an instruction stored at ip and ip + 1, where the next step fetches them. -/
def State.placeAtIp (s : State) (w0 w1 : Word) : State :=
  (s.placeWord s.ip w0).placeWord (wrap16 (s.ip.toNat + 1)) w1

end Sys2Proof.Machine
end

