-- ==== Sys2Proof/Machine/Step.lean ====
section
/-! DEFINITION. One step of the CPU (R79). -/

namespace Sys2Proof.Machine

/-- One fetch-decode-execute cycle (R79). A halted or faulted CPU fetches nothing and changes nothing (R80, R81): the
next state is the same state (log 6). What the step returns (R14) is read from the next state (`State.result`, log 5). -/
def step (s : State) : Host.Outcome State Fault Refusal :=
  match s.status with
  | .faulted _ => .next s
  | .halted => .next s
  | .running =>
    match s.fetch with
    | .error f => raise f s
    | .ok i => exec i s

/-- The instruction whose bits are w (numbered as spec/opcode_table.json numbers them) stored at ip, so that the next
step fetches it (log 10). -/
def State.withFetchWord (s : State) (nbits w : Nat) : State :=
  s.placeAtIp (tableWords nbits w).1 (tableWords nbits w).2

end Sys2Proof.Machine
end

