-- ==== Sys2Proof/Machine/HostPort.lean ====
section
/-! DEFINITION. What the host can do and see, between two steps (00_scope.md R14, R15, R18, R19): start, load, the
snapshot, the status outputs, the result a step returns, and the run loop under fuel (R134). None of it is part of
`step`: a load during a run has no move (R58). -/

namespace Sys2Proof.Machine

/-- `start(cpu_count)` (R130): the reset, for one CPU; any other count is refused (R11, R126, log 7). -/
def start (cpuCount : Nat) : Host.Outcome State Fault Refusal :=
  if cpuCount = Config.cpuCount then .next State.reset else .refused (.cpuCountNotOne cpuCount)

/-- What `load(bytes)` answers (R56). -/
inductive LoadResult where
  /-- The count of bytes placed. -/
  | loaded (count : Nat)
  /-- ProgramTooLarge(requested, capacity), both in bytes (R114). -/
  | programTooLarge (requested capacity : Nat)
deriving DecidableEq, Repr

/-- `load_program(bytes)` (R56): the bytes at byte offset 0 and up, all or none of them (R57). -/
def State.loadProgram (s : State) (bytes : List Byte) : State × LoadResult :=
  if Config.memBytes < bytes.length then (s, .programTooLarge bytes.length Config.memBytes)
  else ({ s with mem := s.mem.writeBytes 0 bytes }, .loaded bytes.length)

/-- The snapshot's tuple, then the memory contents in byte-offset order (R44). -/
structure Snapshot where
  cpuId : Nat
  ip : Word
  sp : Word
  bp : Word
  ac : Word
  gp1 : Word
  gp2 : Word
  gp3 : Word
  gp4 : Word
  flags : Word
  memory : List Byte
deriving DecidableEq, Repr

/-- `snapshot()` (R44): a copy; it changes no state. -/
def State.snapshot (s : State) : Snapshot where
  cpuId := s.cpuId
  ip := s.ip
  sp := s.sp
  bp := s.bp
  ac := s.ac
  gp1 := s.gp1
  gp2 := s.gp2
  gp3 := s.gp3
  gp4 := s.gp4
  flags := s.readFlags
  memory := (List.range Config.memBytes).map s.mem.readByte

/-- fault_valid (R15, R39). -/
def State.faultValid (s : State) : Bool := s.fault.isSome

/-- What a step returns (R14). -/
inductive StepResult where
  | continue
  | halted
  | fault (f : LatchedFault)
deriving DecidableEq, Repr

/-- What the step that ends in this state returned (R14, R79 to R81): a fault when the latch is set, halted when HALT is,
else continue (log 5). -/
def State.result (s : State) : StepResult :=
  match s.status with
  | .running => .continue
  | .halted => .halted
  | .faulted f => .fault f

/-- How a run under fuel ends (R129, R134). -/
inductive RunResult where
  | halted (s : State)
  | faulted (f : LatchedFault) (s : State)
  /-- Out of fuel: no result yet, never read as halted (R134). -/
  | noResultYet (s : State)
  /-- Stuck in a SYS whose hook never returns: the run has not ended (R105, R135). -/
  | stuck (r : Fault)
  | refused (r : Refusal)
deriving DecidableEq, Repr

/-- `run()` for at most so many steps (R134). -/
def runLoop : Nat → State → RunResult
  | 0, s => .noResultYet s
  | fuel + 1, s =>
    match step s with
    | .fault r => .stuck r
    | .refused r => .refused r
    | .next t =>
      match t.result with
      | .halted => .halted t
      | .fault f => .faulted f t
      | .continue => runLoop fuel t

end Sys2Proof.Machine
end

