-- ==== Sys2Proof/Safety.lean ====
section
/-! DEFINITION. What the claims are stated in: the machine's invariant, the frame predicates (what two states share), a
running CPU about to fetch a given word, the faults every instruction of a format takes before it executes, and what a
named property of the SYS hook says. -/

namespace Sys2Proof.Machine

/-- The machine's invariant: the memory array in canonical form, the reserved flag bits 0 (R35), HALT and fault_valid
never both set (R40), the CPU id 0 (R41). -/
abbrev State.Inv (s : State) : Prop :=
  s.mem.wf = true ∧ s.flags &&& 0xFFFC#16 = 0#16 ∧ ¬(s.halted = true ∧ s.fault.isSome = true) ∧ s.cpuId = 0

/-- Every register an operand can name holds in t what it held in s. -/
def SameRegs (s t : State) : Prop := ∀ r, t.reg r = s.reg r

/-- Every such register but d. -/
def SameRegsExcept (d : Reg) (s t : State) : Prop := ∀ r, r ≠ d → t.reg r = s.reg r

/-- Every byte of memory reads in t as in s. -/
def SameMemory (s t : State) : Prop := ∀ k, t.mem.readByte k = s.mem.readByte k

/-- Every byte of memory outside word a reads in t as in s. -/
def SameMemoryOutsideWord (a : Nat) (s t : State) : Prop :=
  ∀ k, k ≠ 2 * a → k ≠ 2 * a + 1 → t.mem.readByte k = s.mem.readByte k

/-- The fault latch and the CPU id are the same. -/
def SameLatch (s t : State) : Prop := t.fault = s.fault ∧ t.cpuId = s.cpuId

/-- No SYS request was served: the model's own fields are the same. -/
def SameHook (s t : State) : Prop := t.hookScript = s.hookScript ∧ t.hookDraws = s.hookDraws

/-- A running CPU whose next instruction's first word is w0, inside memory. -/
abbrev State.RunningAt (s : State) (w0 : Word) : Prop :=
  s.status = .running ∧ s.ip.toNat < 4096 ∧ s.mem.readByte (2 * s.ip.toNat) ++ s.mem.readByte (2 * s.ip.toNat + 1) = w0

/-- The faults a format RW instruction with this opcode byte takes before it executes (R79): IllegalOperand on an
illegal selector or a reserved field that is not 0, before the fetch of w1, which is out of bounds at ip = 4095. -/
def PreFaultsRW (op : Byte) : Prop :=
  ∀ (s : State) (ra rb : Nibble), s.RunningAt (ra ++ rb ++ op) →
    (¬(1 ≤ ra.toNat ∧ ra.toNat ≤ 7) ∨ rb ≠ 0#4 →
      step s = .next { s with fault := some (.illegalOperand (ra ++ rb ++ op) s.ip) }) ∧
    (1 ≤ ra.toNat → ra.toNat ≤ 7 → rb = 0#4 → s.ip = 4095#16 →
      step s = .next { s with fault := some (.outOfBoundsAccess 4096#16) })

/-- The same for format RR: both selectors are used, nothing is reserved, and there is no w1. -/
def PreFaultsRR (op : Byte) : Prop :=
  ∀ (s : State) (ra rb : Nibble), s.RunningAt (ra ++ rb ++ op) →
    ¬(1 ≤ ra.toNat ∧ ra.toNat ≤ 7 ∧ 1 ≤ rb.toNat ∧ rb.toNat ≤ 7) →
      step s = .next { s with fault := some (.illegalOperand (ra ++ rb ++ op) s.ip) }

/-- The same for format W: both selector fields are reserved. -/
def PreFaultsW (op : Byte) : Prop :=
  ∀ (s : State) (ra rb : Nibble), s.RunningAt (ra ++ rb ++ op) →
    (ra ≠ 0#4 ∨ rb ≠ 0#4 →
      step s = .next { s with fault := some (.illegalOperand (ra ++ rb ++ op) s.ip) }) ∧
    (ra = 0#4 → rb = 0#4 → s.ip = 4095#16 →
      step s = .next { s with fault := some (.outOfBoundsAccess 4096#16) })

/-- The same for format N: both selector fields are reserved, and there is no w1. -/
def PreFaultsN (op : Byte) : Prop :=
  ∀ (s : State) (ra rb : Nibble), s.RunningAt (ra ++ rb ++ op) → ra ≠ 0#4 ∨ rb ≠ 0#4 →
    step s = .next { s with fault := some (.illegalOperand (ra ++ rb ++ op) s.ip) }

/-- A fetch at a word address outside memory faults (R99: a bad jump target is an error of the next fetch). -/
def NextFetchFaults (t : State) : Prop :=
  t.status = .running → 4096 ≤ t.ip.toNat → step t = .next { t with fault := some (.outOfBoundsAccess t.ip) }

/-- The outcome the runtime gives to the request of s is one the relation SYS_HOOK allows (R104): a claim about a run
that executes SYS names the relation and assumes this of each state that executes it. -/
def State.HookAllows (s : State) (sysHook : SysRequest → HookOutcome → Prop) : Prop :=
  sysHook s.sysRequest s.hookOutcome

/-- The register an instruction's meaning may write, SYS apart (R30). -/
def destination : Instr → Option Reg
  | .lrm d _ | .lra d _ | .mvr _ d => some d
  | .add a _ | .sub a _ | .mul a _ | .div a _ => some a
  | .srm _ _ | .cmp _ _ | .jmp _ | .je _ | .jne _ | .sys | .hlt => none

/-- An outcome with a change made to its state. -/
def mapOutcome (f : State → State) (o : Host.Outcome State Fault Refusal) : Host.Outcome State Fault Refusal :=
  match o with
  | .next t => .next (f t)
  | .fault r => .fault r
  | .refused r => .refused r

end Sys2Proof.Machine
end

