-- ==== Sys2Proof/Certificates/Slice0/Obligations.lean ====
section
/-! DEFINITION. The statements for the provers: what spec/'s numbered rules say an instruction or the machine does. A
docstring names the rule, and where a clause rests on a decision of spec/92_eei_decisions.md (the spec's own choice) or
on an entry of the assumption log, it names that. -/

open Sys2Proof Sys2Proof.Machine

/-! ### Encoding -/

/-- Decoding the bytes of any instruction, with anything after them, gives it back (R67 to R74; positions, selector
values and lengths are the spec's decisions D3, D4, D25). -/
def Obligations.DecodeInvertsEncode : Prop :=
  ∀ (i : Instr) (rest : List Byte), decodeBytes (encodeBytes i ++ rest) = .ok (i, rest)

/-- Whatever bytes decode to an instruction are that instruction's encoding: each instruction has one encoding (R67 to
R77; D3, D4, D5, D25). -/
def Obligations.EncodeInvertsDecode : Prop :=
  ∀ (bs rest : List Byte) (i : Instr), decodeBytes bs = .ok (i, rest) → bs = encodeBytes i ++ rest

/-- The decoder accepts a first word exactly when its fields are well formed; a word whose opcode byte is unknown is
rejected with that byte whatever its high byte holds, and any other rejected word with itself (R71, R72, R75, R78;
decisions D3, D5, D6, D13). -/
def Obligations.HeadAcceptedIffFieldsWellFormed : Prop :=
  ∀ (ra rb : Nibble) (op : Byte),
    ((∃ h, decodeHead (ra ++ rb ++ op) = .ok h) ↔ (Fields.mk ra rb op).wellFormed = true) ∧
    (decodeHead (ra ++ rb ++ op) = .error (.unknownOpcode op) ↔ op.toNat = 0 ∨ 0x0F ≤ op.toNat) ∧
    (decodeHead (ra ++ rb ++ op) = .error (.illegalOperand (ra ++ rb ++ op)) ↔
      (Fields.mk ra rb op).opcodeKnown = true ∧ (Fields.mk ra rb op).wellFormed = false)

/-- The words of the examples table R87 (derived by the spec from R67 to R74) decode to the instructions it names. -/
def Obligations.ExampleWordsDecode : Prop :=
  decodeWords [0x4001#16, 0x0100#16] = .ok (.lrm .gp1 0x0100#16, []) ∧
  decodeWords [0x4002#16, 0x0005#16] = .ok (.lra .gp1 5#16, []) ∧
  decodeWords [0x3003#16, 0x0FFF#16] = .ok (.srm .ac 0x0FFF#16, []) ∧
  decodeWords [0x4504#16] = .ok (.mvr .gp1 .gp2, []) ∧
  decodeWords [0x4505#16] = .ok (.add .gp1 .gp2, []) ∧
  decodeWords [0x1206#16] = .ok (.sub .sp .bp, []) ∧
  decodeWords [0x6707#16] = .ok (.mul .gp3 .gp4, []) ∧
  decodeWords [0x7408#16] = .ok (.div .gp4 .gp1, []) ∧
  decodeWords [0x4409#16] = .ok (.cmp .gp1 .gp1, []) ∧
  decodeWords [0x000A#16, 0x1000#16] = .ok (.jmp 0x1000#16, []) ∧
  decodeWords [0x000B#16, 0x0008#16] = .ok (.je 8#16, []) ∧
  decodeWords [0x000C#16, 0x0008#16] = .ok (.jne 8#16, []) ∧
  decodeWords [0x000D#16] = .ok (.sys, []) ∧
  decodeWords [0x000E#16] = .ok (.hlt, [])

/-! ### The step -/

/-- When the bytes at ip decode to i and all of i's words are inside memory, one step of a running CPU is exec of i
(R79). -/
def Obligations.StepRunsTheDecodedInstruction : Prop :=
  ∀ (s : State) (i : Instr) (rest : List Byte), s.status = .running →
    decodeBytes [s.mem.readByte (2 * s.ip.toNat), s.mem.readByte (2 * s.ip.toNat + 1),
      s.mem.readByte (2 * s.ip.toNat + 2), s.mem.readByte (2 * s.ip.toNat + 3)] = .ok (i, rest) →
    s.ip.toNat + i.words ≤ 4096 →
    step s = exec i s

/-- The order in which a step's conditions are reported (R116, decision D13): the latch, HALT, the fetch of w0, the
opcode, the operands, the fetch of w1, and only then the instruction's own execution. -/
def Obligations.StepReportsTheFirstCondition : Prop :=
  (∀ s : State, s.fault ≠ none → step s = .next s) ∧
  (∀ s : State, s.fault = none → s.flags.getLsbD 1 = true → step s = .next s) ∧
  (∀ s : State, s.status = .running → 4096 ≤ s.ip.toNat →
    step s = .next { s with fault := some (.outOfBoundsAccess s.ip) }) ∧
  (∀ (s : State) (f : Fields), s.RunningAt (f.ra ++ f.rb ++ f.op) → f.opcodeKnown = false →
    step s = .next { s with fault := some (.unknownOpcode f.op s.ip) }) ∧
  (∀ (s : State) (f : Fields), s.RunningAt (f.ra ++ f.rb ++ f.op) → f.opcodeKnown = true → f.wellFormed = false →
    step s = .next { s with fault := some (.illegalOperand (f.ra ++ f.rb ++ f.op) s.ip) }) ∧
  (∀ (s : State) (f : Fields), s.RunningAt (f.ra ++ f.rb ++ f.op) → f.wellFormed = true →
    f.format.map Format.words = some 2 → s.ip = 4095#16 →
    step s = .next { s with fault := some (.outOfBoundsAccess 4096#16) }) ∧
  (∀ (s : State) (f : Fields), s.RunningAt (f.ra ++ f.rb ++ f.op) → f.wellFormed = true →
    (f.format.map Format.words = some 1 ∨ s.ip.toNat < 4095) →
    ∃ i, s.fetch = .ok i ∧ i.fields = f ∧ step s = exec i s)

/-- R109: an opcode byte outside 0x01 to 0x0E latches UnknownOpcode with that byte and ip, nothing else changes, and no
later step of that CPU changes anything; and no other first word latches it. -/
def Obligations.UnknownOpcodeIsFatal : Prop :=
  ∀ (s : State) (ra rb : Nibble) (op : Byte), s.RunningAt (ra ++ rb ++ op) →
    (¬(0x01 ≤ op.toNat ∧ op.toNat ≤ 0x0E) →
      step s = .next { s with fault := some (.unknownOpcode op s.ip) } ∧
      ∀ n, Host.Core.run core n { s with fault := some (.unknownOpcode op s.ip) } =
        .next { s with fault := some (.unknownOpcode op s.ip) }) ∧
    (0x01 ≤ op.toNat ∧ op.toNat ≤ 0x0E →
      ∀ t b a, step s = .next t → t.fault ≠ some (.unknownOpcode b a))

/-- Fault entry is precise (R117, decision D12): the state after a step that latches a fault differs from the state
before it in the latch alone, and the step's result reports that fault. -/
def Obligations.FaultEntryIsPrecise : Prop :=
  ∀ (s t : State) (f : LatchedFault), s.fault = none → step s = .next t → t.fault = some f →
    t = { s with fault := some f } ∧ t.result = .fault f

/-- A faulted CPU is inert: however many steps it takes, no state changes (R81, R119, decision D12). -/
def Obligations.FaultedCpuIsInert : Prop :=
  ∀ (s : State) (f : LatchedFault) (n : Nat), s.fault = some f → Host.Core.run core n s = .next s ∧ s.result = .fault f

/-- A halted CPU is inert: however many steps it takes, no state changes (R80, R128, decision D11). -/
def Obligations.HaltedCpuIsInert : Prop :=
  ∀ (s : State) (n : Nat), s.fault = none → s.flags.getLsbD 1 = true →
    Host.Core.run core n s = .next s ∧ s.result = .halted

/-- R107: the step that executes HLT returns halted, from then on is_halted is true, the next step is a no-op, and the
snapshot still reads every register, the flags and the memory. -/
def Obligations.HaltIsSignalled : Prop :=
  ∀ s : State, s.status = .running → s.fetch = .ok .hlt →
    ∃ t, step s = .next t ∧ t.result = .halted ∧ t.halted = true ∧ step t = .next t ∧
      t.snapshot = { s.snapshot with flags := s.readFlags ||| 0x0002#16 }

/-- A running CPU stops only by executing HLT or by taking a fault (R120: the run loop terminates only via HALT or
fault; R128). -/
def Obligations.OnlyHltOrFaultStopsTheCpu : Prop :=
  ∀ s t : State, s.status = .running → step s = .next t → t.status ≠ .running →
    (s.fetch = .ok .hlt ∧ t.status = .halted) ∨ ∃ f, t.fault = some f ∧ t.status = .faulted f

/-- R83: the next ip, instruction by instruction; a faulting step, a halted no-op and a faulted no-op leave it. -/
def Obligations.ProgramCounterMux : Prop :=
  ∀ s t : State, step s = .next t →
    (s.status ≠ .running → t.ip = s.ip) ∧
    (s.status = .running → t.fault ≠ none → t.ip = s.ip) ∧
    (s.status = .running → t.fault = none →
      ∃ i, s.fetch = .ok i ∧
        t.ip = match i with
          | .lrm _ _ | .lra _ _ | .srm _ _ => BitVec.ofNat 16 (s.ip.toNat + 2)
          | .mvr _ _ | .add _ _ | .sub _ _ | .mul _ _ | .div _ _ | .cmp _ _ | .sys => BitVec.ofNat 16 (s.ip.toNat + 1)
          | .jmp addr => addr
          | .je addr => if s.flags.getLsbD 0 = true then addr else BitVec.ofNat 16 (s.ip.toNat + 2)
          | .jne addr => if s.flags.getLsbD 0 = false then addr else BitVec.ofNat 16 (s.ip.toNat + 2)
          | .hlt => s.ip)

/-- An instruction executes only if all its words are inside memory, so a sequential ip never wraps: it is at most 4096
(R84, decision D23). -/
def Obligations.InstructionsExecuteInsideMemory : Prop :=
  ∀ s t : State, s.status = .running → step s = .next t → t.fault = none →
    ∃ i, s.fetch = .ok i ∧ s.ip.toNat + i.words ≤ 4096 ∧
      ((∀ a, i ≠ .jmp a ∧ i ≠ .je a ∧ i ≠ .jne a) → t.ip.toNat ≤ 4096)

/-- The machine's invariant, kept by every step: canonical memory, reserved flag bits 0 (R35), HALT and fault_valid never
both set (R40), CPU id 0 (R41). The canonical form of memory is the model's own. -/
def Obligations.StepKeepsInvariant : Prop :=
  ∀ s t : State, s.Inv → step s = .next t → t.Inv

/-- The invariant holds at reset. -/
def Obligations.ResetMeetsInvariant : Prop := State.reset.Inv

/-- What reset leaves (R45, decisions D12, D16, D27): every register 0, flags 0, the latch clear, every byte 0x00, the id
0, the CPU running. Nothing is said of the model's own two fields. -/
def Obligations.ResetState : Prop :=
  start 1 = .next State.reset ∧ State.reset.ip = 0#16 ∧ (∀ r, State.reset.reg r = 0#16) ∧ State.reset.flags = 0#16 ∧
  State.reset.fault = none ∧ (∀ k, State.reset.mem.readByte k = 0#8) ∧ State.reset.cpuId = 0 ∧
  State.reset.status = .running

/-! ### What no instruction does -/

/-- Of all instructions, only CMP writes EQUAL and only HLT writes HALT, which no instruction clears; no instruction
writes another flag bit (R36, R37, R38; decisions D9, D10, D11). -/
def Obligations.OnlyCmpAndHltWriteFlags : Prop :=
  ∀ (i : Instr) (s t : State), exec i s = .next t →
    (∀ k, k ≠ 0 → k ≠ 1 → t.flags.getLsbD k = s.flags.getLsbD k) ∧
    t.flags.getLsbD 0 = (match i with | .cmp a b => decide (s.reg a = s.reg b) | _ => s.flags.getLsbD 0) ∧
    t.flags.getLsbD 1 = (match i with | .hlt => true | _ => s.flags.getLsbD 1)

/-- An instruction other than SYS writes no register but the one its operand names as destination: sp, bp and ac have
no implicit use (R30, R31, R32; decision D7). -/
def Obligations.OnlyTheDestinationRegisterChanges : Prop :=
  ∀ (i : Instr) (s t : State) (r : Reg), i ≠ .sys → exec i s = .next t → destination i ≠ some r → t.reg r = s.reg r

/-- Besides the fetch, only LRM, SRM and SYS reach memory (R54): every other instruction does the same whatever memory
holds, and leaves it as it is. -/
def Obligations.OtherInstructionsDoNotReachMemory : Prop :=
  ∀ (i : Instr) (s : State) (m : Memory), (∀ d a, i ≠ .lrm d a) → (∀ r a, i ≠ .srm r a) → i ≠ .sys →
    exec i { s with mem := m } = mapOutcome (fun t => { t with mem := m }) (exec i s)

/-- The execution faults of each instruction (R115): only LRM, SRM, DIV and SYS latch one, each its own. -/
def Obligations.ExecutionFaultsByInstruction : Prop :=
  ∀ (i : Instr) (s t : State) (f : LatchedFault), s.fault = none → exec i s = .next t → t.fault = some f →
    (∃ d a, i = .lrm d a ∧ 4096 ≤ a.toNat ∧ f = .outOfBoundsAccess a) ∨
    (∃ r a, i = .srm r a ∧ 4096 ≤ a.toNat ∧ f = .outOfBoundsAccess a) ∨
    (∃ a b, i = .div a b ∧ s.reg b = 0#16 ∧ f = .divisionByZero s.ip) ∨
    (∃ code, i = .sys ∧ s.hookOutcome = .fail code ∧ f = .sysFault code s.ip)

/-- R118: no instruction reads the fault latch (what it does differs in nothing but the latch, whatever the latch holds),
no step of a faulted CPU runs anything, and the run loop's outcome gives the fault to the caller. -/
def Obligations.FaultInvisibleToTheProgram : Prop :=
  (∀ (i : Instr) (s : State) (f g : Option LatchedFault),
    mapOutcome (fun t => { t with fault := none }) (exec i { s with fault := f }) =
      mapOutcome (fun t => { t with fault := none }) (exec i { s with fault := g })) ∧
  (∀ (s : State) (f : LatchedFault), s.fault = some f → step s = .next s) ∧
  (∀ (s t : State) (f : LatchedFault) (n : Nat), step s = .next t → t.fault = some f → runLoop (n + 1) s = .faulted f t)

/-! ### Memory, load, snapshot, run -/

/-- R50 and R51: MemRead and MemWrite, inside memory and outside it. -/
def Obligations.MemoryPort : Prop :=
  (∀ (s : State) (a : Word), a.toNat < 4096 →
    s.memRead a = .ok (s.mem.readByte (2 * a.toNat) ++ s.mem.readByte (2 * a.toNat + 1))) ∧
  (∀ (s : State) (a : Word), 4096 ≤ a.toNat → s.memRead a = .error (.outOfBoundsAccess a)) ∧
  (∀ (s : State) (a v : Word), a.toNat < 4096 →
    ∃ t, s.memWrite a v = .ok t ∧ t.mem.readByte (2 * a.toNat) = v.extractLsb 15 8 ∧
      t.mem.readByte (2 * a.toNat + 1) = v.extractLsb 7 0 ∧ SameMemoryOutsideWord a.toNat s t ∧
      t = { s with mem := t.mem }) ∧
  (∀ (s : State) (a v : Word), 4096 ≤ a.toNat → s.memWrite a v = .error (.outOfBoundsAccess a))

/-- A read returns the most recent write to the same word, and a write to another word does not change it (R59, decision
D20). -/
def Obligations.ReadAfterWrite : Prop :=
  ∀ (s t : State) (a b v : Word), s.memWrite a v = .ok t →
    t.memRead b = if b = a then .ok v else s.memRead b

/-- `load` of at most 8192 bytes places them from byte offset 0 on, answers their count, and changes nothing else (R56,
decision D19). -/
def Obligations.LoadPlacesTheProgram : Prop :=
  ∀ (s : State) (bytes : List Byte), bytes.length ≤ 8192 →
    ∃ t, s.loadProgram bytes = (t, .loaded bytes.length) ∧
      (∀ k b, bytes[k]? = some b → t.mem.readByte k = b) ∧
      (∀ k, bytes.length ≤ k → t.mem.readByte k = s.mem.readByte k) ∧
      t = { s with mem := t.mem }

/-- R57 and R114: a longer sequence fails with ProgramTooLarge(its length, 8192) and leaves memory, the CPU and the latch
as they were; a sequence of at most 8192 bytes does not fail. -/
def Obligations.LoadFailureIsAtomic : Prop :=
  ∀ (s : State) (bytes : List Byte),
    (8192 < bytes.length → s.loadProgram bytes = (s, .programTooLarge bytes.length 8192)) ∧
    (bytes.length ≤ 8192 → ∀ r c, (s.loadProgram bytes).2 ≠ .programTooLarge r c)

/-- The snapshot (R44, decision D17): the id, the registers in order, the flags with the reserved bits read as 0 (R35),
and all 8192 bytes in byte-offset order. -/
def Obligations.SnapshotReportsTheState : Prop :=
  ∀ s : State, s.snapshot.cpuId = s.cpuId ∧ s.snapshot.ip = s.ip ∧ s.snapshot.sp = s.reg .sp ∧
    s.snapshot.bp = s.reg .bp ∧ s.snapshot.ac = s.reg .ac ∧ s.snapshot.gp1 = s.reg .gp1 ∧
    s.snapshot.gp2 = s.reg .gp2 ∧ s.snapshot.gp3 = s.reg .gp3 ∧ s.snapshot.gp4 = s.reg .gp4 ∧
    s.snapshot.flags.getLsbD 0 = s.flags.getLsbD 0 ∧ s.snapshot.flags.getLsbD 1 = s.flags.getLsbD 1 ∧
    (∀ k, 2 ≤ k → s.snapshot.flags.getLsbD k = false) ∧ s.snapshot.memory.length = 8192 ∧
    ∀ k, k < 8192 → s.snapshot.memory[k]? = some (s.mem.readByte k)

/-- A machine with any CPU count but 1 is refused (R11, R126, decision D15; that start(0) is refused too is the model's
choice, log 7). -/
def Obligations.OtherCpuCountsAreRefused : Prop :=
  ∀ n : Nat, n ≠ 1 → start n = .refused (.cpuCountNotOne n)

/-- A run that has ended has ended: more fuel gives the same terminal outcome, which is halted or faulted as the final
state says; running out of fuel is never read as either (R129, R134, decision D26). -/
def Obligations.TerminalOutcomeIsFinal : Prop :=
  ∀ (n : Nat) (s t : State),
    (runLoop n s = .halted t → t.status = .halted ∧ ∀ m, runLoop (n + m) s = .halted t) ∧
    (∀ f, runLoop n s = .faulted f t → t.status = .faulted f ∧ ∀ m, runLoop (n + m) s = .faulted f t) ∧
    (s.status = .running → runLoop n s = .noResultYet t → t.status = .running)

/-! ### The instructions: encoding, effect, frame, faults -/

/-- R88 LRM: its words; inside memory it loads the word at addr; outside it faults and changes nothing; the decode and
fetch faults that come before. -/
def Obligations.LrmLoadsFromMemory : Prop :=
  (∀ (d : Reg) (addr : Word) (rest : List Word),
    decodeWords ((d.selector ++ 0#4 ++ 0x01#8) :: addr :: rest) = .ok (.lrm d addr, rest)) ∧
  (∀ (d : Reg) (addr : Word) (s : State), addr.toNat < 4096 →
    ∃ t, exec (.lrm d addr) s = .next t ∧
      t.reg d = s.mem.readByte (2 * addr.toNat) ++ s.mem.readByte (2 * addr.toNat + 1) ∧
      t.ip.toNat = (s.ip.toNat + 2) % 65536 ∧ SameRegsExcept d s t ∧ t.flags = s.flags ∧ SameMemory s t ∧
      SameLatch s t ∧ SameHook s t) ∧
  (∀ (d : Reg) (addr : Word) (s : State), 4096 ≤ addr.toNat →
    exec (.lrm d addr) s = .next { s with fault := some (.outOfBoundsAccess addr) }) ∧
  PreFaultsRW 0x01#8

/-- R89 LRA: its words; it loads the whole operand word, whatever it is; the decode and fetch faults that come before. -/
def Obligations.LraLoadsTheImmediate : Prop :=
  (∀ (d : Reg) (imm : Word) (rest : List Word),
    decodeWords ((d.selector ++ 0#4 ++ 0x02#8) :: imm :: rest) = .ok (.lra d imm, rest)) ∧
  (∀ (d : Reg) (imm : Word) (s : State),
    ∃ t, exec (.lra d imm) s = .next t ∧ t.reg d = imm ∧
      t.ip.toNat = (s.ip.toNat + 2) % 65536 ∧ SameRegsExcept d s t ∧ t.flags = s.flags ∧ SameMemory s t ∧
      SameLatch s t ∧ SameHook s t) ∧
  PreFaultsRW 0x02#8

/-- R90 SRM: its words; inside memory it stores the register to word addr and to no other byte; outside it faults and
changes nothing; the next fetch of the stored word fetches the register's value, while the SRM being executed is the one
fetched before the store; the decode and fetch faults that come before. -/
def Obligations.SrmStoresToMemory : Prop :=
  (∀ (src : Reg) (addr : Word) (rest : List Word),
    decodeWords ((src.selector ++ 0#4 ++ 0x03#8) :: addr :: rest) = .ok (.srm src addr, rest)) ∧
  (∀ (src : Reg) (addr : Word) (s : State), addr.toNat < 4096 →
    ∃ t, exec (.srm src addr) s = .next t ∧
      t.mem.readByte (2 * addr.toNat) = (s.reg src).extractLsb 15 8 ∧
      t.mem.readByte (2 * addr.toNat + 1) = (s.reg src).extractLsb 7 0 ∧ SameMemoryOutsideWord addr.toNat s t ∧
      t.ip.toNat = (s.ip.toNat + 2) % 65536 ∧ SameRegs s t ∧ t.flags = s.flags ∧ SameLatch s t ∧ SameHook s t) ∧
  (∀ (src : Reg) (addr : Word) (s : State), 4096 ≤ addr.toNat →
    exec (.srm src addr) s = .next { s with fault := some (.outOfBoundsAccess addr) }) ∧
  (∀ (src : Reg) (addr : Word) (s : State), s.status = .running → s.fetch = .ok (.srm src addr) → addr.toNat < 4096 →
    ∃ t, step s = .next t ∧ exec (.srm src addr) s = .next t ∧ ({ t with ip := addr } : State).RunningAt (s.reg src)) ∧
  PreFaultsRW 0x03#8

/-- R91 MVR (the places of its operands are decision D4): its words; it copies src into d, src = d included; the decode
faults that come before. -/
def Obligations.MvrCopiesARegister : Prop :=
  (∀ (src d : Reg) (rest : List Word),
    decodeWords ((src.selector ++ d.selector ++ 0x04#8) :: rest) = .ok (.mvr src d, rest)) ∧
  (∀ (src d : Reg) (s : State),
    ∃ t, exec (.mvr src d) s = .next t ∧ t.reg d = s.reg src ∧
      t.ip.toNat = (s.ip.toNat + 1) % 65536 ∧ SameRegsExcept d s t ∧ t.flags = s.flags ∧ SameMemory s t ∧
      SameLatch s t ∧ SameHook s t) ∧
  PreFaultsRR 0x04#8

/-- ADD (R92; that it writes no flag is the spec's own decision D10): its words; the sum modulo 2^16, a = b included, no
fault and no flag; the decode faults that come before. -/
def Obligations.AddWraps : Prop :=
  (∀ (a b : Reg) (rest : List Word),
    decodeWords ((a.selector ++ b.selector ++ 0x05#8) :: rest) = .ok (.add a b, rest)) ∧
  (∀ (a b : Reg) (s : State),
    ∃ t, exec (.add a b) s = .next t ∧ (t.reg a).toNat = ((s.reg a).toNat + (s.reg b).toNat) % 65536 ∧
      t.ip.toNat = (s.ip.toNat + 1) % 65536 ∧ SameRegsExcept a s t ∧ t.flags = s.flags ∧ SameMemory s t ∧
      SameLatch s t ∧ SameHook s t) ∧
  PreFaultsRR 0x05#8

/-- SUB (R93; that it writes no flag is the spec's own decision D10): its words; the difference modulo 2^16, no fault and
no flag; the decode faults that come before. -/
def Obligations.SubWraps : Prop :=
  (∀ (a b : Reg) (rest : List Word),
    decodeWords ((a.selector ++ b.selector ++ 0x06#8) :: rest) = .ok (.sub a b, rest)) ∧
  (∀ (a b : Reg) (s : State),
    ∃ t, exec (.sub a b) s = .next t ∧ (t.reg a).toNat = ((s.reg a).toNat + 65536 - (s.reg b).toNat) % 65536 ∧
      t.ip.toNat = (s.ip.toNat + 1) % 65536 ∧ SameRegsExcept a s t ∧ t.flags = s.flags ∧ SameMemory s t ∧
      SameLatch s t ∧ SameHook s t) ∧
  PreFaultsRR 0x06#8

/-- MUL (R94; that it writes no flag is the spec's own decision D10): its words; the low 16 bits of the unsigned product,
the high half visible nowhere, no fault and no flag; the decode faults that come before. -/
def Obligations.MulWraps : Prop :=
  (∀ (a b : Reg) (rest : List Word),
    decodeWords ((a.selector ++ b.selector ++ 0x07#8) :: rest) = .ok (.mul a b, rest)) ∧
  (∀ (a b : Reg) (s : State),
    ∃ t, exec (.mul a b) s = .next t ∧ (t.reg a).toNat = ((s.reg a).toNat * (s.reg b).toNat) % 65536 ∧
      t.ip.toNat = (s.ip.toNat + 1) % 65536 ∧ SameRegsExcept a s t ∧ t.flags = s.flags ∧ SameMemory s t ∧
      SameLatch s t ∧ SameHook s t) ∧
  PreFaultsRR 0x07#8

/-- DIV (R95) with a divisor that is not 0 (truncation is the spec's own decision D28, and that it writes no flag its
decision D10): its words; the quotient q with
q * b ≤ a < (q + 1) * b, the remainder visible nowhere, no flag; the decode faults that come before. -/
def Obligations.DivTruncates : Prop :=
  (∀ (a b : Reg) (rest : List Word),
    decodeWords ((a.selector ++ b.selector ++ 0x08#8) :: rest) = .ok (.div a b, rest)) ∧
  (∀ (a b : Reg) (s : State), s.reg b ≠ 0#16 →
    ∃ t, exec (.div a b) s = .next t ∧
      (t.reg a).toNat * (s.reg b).toNat ≤ (s.reg a).toNat ∧
      (s.reg a).toNat < ((t.reg a).toNat + 1) * (s.reg b).toNat ∧
      t.ip.toNat = (s.ip.toNat + 1) % 65536 ∧ SameRegsExcept a s t ∧ t.flags = s.flags ∧ SameMemory s t ∧
      SameLatch s t ∧ SameHook s t) ∧
  PreFaultsRR 0x08#8

/-- R111: DIV whose divisor register holds 0 (a = b and 0 ÷ 0 included) raises DivisionByZero(ip), changes nothing else,
and is fatal: no later step changes anything. -/
def Obligations.DivByZeroIsFatal : Prop :=
  ∀ (a b : Reg) (s : State), s.reg b = 0#16 →
    exec (.div a b) s = .next { s with fault := some (.divisionByZero s.ip) } ∧
    ∀ n, Host.Core.run core n { s with fault := some (.divisionByZero s.ip) } =
      .next { s with fault := some (.divisionByZero s.ip) }

/-- R96 CMP: its words; EQUAL set or cleared every time, every other flag bit and both operands unchanged; the decode
faults that come before. -/
def Obligations.CmpSetsOrClearsEqual : Prop :=
  (∀ (a b : Reg) (rest : List Word),
    decodeWords ((a.selector ++ b.selector ++ 0x09#8) :: rest) = .ok (.cmp a b, rest)) ∧
  (∀ (a b : Reg) (s : State),
    ∃ t, exec (.cmp a b) s = .next t ∧ (t.flags.getLsbD 0 = true ↔ s.reg a = s.reg b) ∧
      (∀ k, k ≠ 0 → t.flags.getLsbD k = s.flags.getLsbD k) ∧
      t.ip.toNat = (s.ip.toNat + 1) % 65536 ∧ SameRegs s t ∧ SameMemory s t ∧ SameLatch s t ∧ SameHook s t) ∧
  PreFaultsRR 0x09#8

/-- R99 JMP: its words; ip is the target, unchecked, and nothing else changes (a jump to itself changes nothing at all);
an out-of-bounds target faults at the next fetch; the decode and fetch faults that come before. -/
def Obligations.JmpSetsIp : Prop :=
  (∀ (addr : Word) (rest : List Word), decodeWords (0x000A#16 :: addr :: rest) = .ok (.jmp addr, rest)) ∧
  (∀ (addr : Word) (s : State),
    ∃ t, exec (.jmp addr) s = .next t ∧ t.ip = addr ∧ SameRegs s t ∧ t.flags = s.flags ∧ SameMemory s t ∧
      SameLatch s t ∧ SameHook s t ∧ (addr = s.ip → t = s) ∧ NextFetchFaults t) ∧
  PreFaultsW 0x0A#8

/-- R100 JE: its words; the target if EQUAL is set, else past both words with the target ignored; a taken out-of-bounds
target faults at the next fetch; EQUAL is 0 after reset; the decode and fetch faults that come before. -/
def Obligations.JeJumpsIfEqual : Prop :=
  (∀ (addr : Word) (rest : List Word), decodeWords (0x000B#16 :: addr :: rest) = .ok (.je addr, rest)) ∧
  (∀ (addr : Word) (s : State),
    ∃ t, exec (.je addr) s = .next t ∧ (s.flags.getLsbD 0 = true → t.ip = addr) ∧
      (s.flags.getLsbD 0 = false → t.ip.toNat = (s.ip.toNat + 2) % 65536) ∧ SameRegs s t ∧ t.flags = s.flags ∧
      SameMemory s t ∧ SameLatch s t ∧ SameHook s t ∧ NextFetchFaults t) ∧
  State.reset.flags.getLsbD 0 = false ∧
  PreFaultsW 0x0B#8

/-- R101 JNE: its words; the target if EQUAL is clear, else past both words; a taken out-of-bounds target faults at the
next fetch; EQUAL is 0 after reset; the decode and fetch faults that come before. -/
def Obligations.JneJumpsIfNotEqual : Prop :=
  (∀ (addr : Word) (rest : List Word), decodeWords (0x000C#16 :: addr :: rest) = .ok (.jne addr, rest)) ∧
  (∀ (addr : Word) (s : State),
    ∃ t, exec (.jne addr) s = .next t ∧ (s.flags.getLsbD 0 = false → t.ip = addr) ∧
      (s.flags.getLsbD 0 = true → t.ip.toNat = (s.ip.toNat + 2) % 65536) ∧ SameRegs s t ∧ t.flags = s.flags ∧
      SameMemory s t ∧ SameLatch s t ∧ SameHook s t ∧ NextFetchFaults t) ∧
  State.reset.flags.getLsbD 0 = false ∧
  PreFaultsW 0x0C#8

/-- SYS (R103, R104; decisions D7, D8): its word; when the hook's outcome is ok(r, B'), the seven registers are r's,
every byte of memory is B''s (the last cell for it, else 0x00: log 4), flags, latch and id are unchanged and ip moves
past it. -/
def Obligations.SysCommitsTheHooksOk : Prop :=
  (∀ rest : List Word, decodeWords (0x000D#16 :: rest) = .ok (.sys, rest)) ∧
  (∀ (s : State) (r : HookRegs) (image : List Host.Cell), s.hookOutcome = .ok r image →
    ∃ t, exec .sys s = .next t ∧ (∀ q, t.reg q = r.get q) ∧
      (∀ k, k < 8192 → t.mem.readByte k = (((image.filter fun c => c.1 == k).getLast?.map Prod.snd).getD 0x00#8)) ∧
      (∀ k, 8192 ≤ k → t.mem.readByte k = 0x00#8) ∧
      t.ip.toNat = (s.ip.toNat + 1) % 65536 ∧ t.flags = s.flags ∧ SameLatch s t ∧
      t.hookScript = s.hookScript.tail ∧ t.hookDraws = s.hookDraws + 1) ∧
  PreFaultsN 0x0D#8

/-- SYS whose hook does not return ok (R103, R105, R113; decision D8): fail(code) raises SysFault(code, ip) and changes
nothing else; a hook that never returns leaves no next state (the model's stop for it is log 3's). -/
def Obligations.SysFailsOrBlocks : Prop :=
  (∀ (s : State) (code : Word), s.hookOutcome = .fail code →
    exec .sys s = .next { s with fault := some (.sysFault code s.ip) }) ∧
  (∀ s : State, s.hookOutcome = .never → exec .sys s = .fault .sysHookBlocked)

/-- The request SYS sends (R103, R104; decisions D7, D8, D16), and where its outcome comes from: the outcome the state
names first, else the free value for this request (the model's choice, log 1). -/
def Obligations.SysRequestIsAnswered : Prop :=
  (∀ (s : State) (o : HookOutcome) (rest : List HookOutcome), s.hookScript = o :: rest → s.hookOutcome = o) ∧
  (∀ s : State, s.hookScript = [] →
    ∃ q : SysRequest, s.hookOutcome = Config.sysHook s.hookDraws q ∧ q.callNumber = s.reg .ac ∧ q.cpuId = s.cpuId ∧
      q.ip = s.ip ∧ q.sp = s.reg .sp ∧ q.bp = s.reg .bp ∧ q.ac = s.reg .ac ∧ q.gp1 = s.reg .gp1 ∧
      q.gp2 = s.reg .gp2 ∧ q.gp3 = s.reg .gp3 ∧ q.gp4 = s.reg .gp4 ∧ q.flags = s.flags &&& 0x0003#16 ∧ q.mem = s.mem)

/-- HLT (R106; HALT's place is decision D9): its word; HALT set, every other flag bit, ip, the registers and memory
unchanged; the decode faults that come before. -/
def Obligations.HltSetsHalt : Prop :=
  (∀ rest : List Word, decodeWords (0x000E#16 :: rest) = .ok (.hlt, rest)) ∧
  (∀ s : State,
    ∃ t, exec .hlt s = .next t ∧ t.flags.getLsbD 1 = true ∧ (∀ k, k ≠ 1 → t.flags.getLsbD k = s.flags.getLsbD k) ∧
      t.ip = s.ip ∧ SameRegs s t ∧ SameMemory s t ∧ SameLatch s t ∧ SameHook s t) ∧
  PreFaultsN 0x0E#8
end

