-- ==== Sys2Proof/Laws/Memory.lean ====
section
/-! SUPPORT. The memory array: a read after a write, everywhere, and the canonical form kept by every operation. -/

namespace Sys2Proof.Machine

@[simp] theorem readByte_nil (k : Nat) : Memory.readByte [] k = Memory.unlisted := rfl

theorem readByte_cons (c : Host.Cell) (m : Memory) (k : Nat) :
    Memory.readByte (c :: m) k = if c.1 = k then c.2 else Memory.readByte m k := rfl

theorem erase_cons (c : Host.Cell) (m : Memory) (k : Nat) :
    Memory.erase (c :: m) k = if c.1 = k then Memory.erase m k else c :: Memory.erase m k := by
  by_cases h : c.1 = k <;> simp [Memory.erase, h]

theorem readByte_erase (m : Memory) (k j : Nat) :
    (m.erase k).readByte j = if j = k then Memory.unlisted else m.readByte j := by
  induction m with
  | nil => simp [Memory.erase]
  | cons c m ih =>
    rw [erase_cons]
    by_cases h : c.1 = k
    · rw [if_pos h, ih, readByte_cons]
      by_cases hj : j = k
      · simp [hj]
      · simp [hj, show c.1 ≠ j by omega]
    · rw [if_neg h, readByte_cons, readByte_cons, ih]
      by_cases hj : j = k
      · simp [hj, h]
      · simp [hj]

theorem readByte_insert (m : Memory) (k j : Nat) (v : Byte) (h : ∀ c ∈ m, c.1 ≠ k) :
    (m.insert k v).readByte j = if j = k then v else m.readByte j := by
  induction m with
  | nil => simp [Memory.insert, readByte_cons, eq_comm]
  | cons c m ih =>
    have hc : c.1 ≠ k := h c (by simp)
    have hm : ∀ c ∈ m, c.1 ≠ k := fun d hd => h d (by simp [hd])
    simp only [Memory.insert]
    split
    · rw [readByte_cons]; simp [eq_comm]
    · rw [readByte_cons, readByte_cons, ih hm]
      by_cases hj : j = k
      · simp [hj, hc]
      · simp [hj]

theorem not_mem_erase (m : Memory) (k : Nat) : ∀ c ∈ m.erase k, c.1 ≠ k := by
  intro c hc
  simpa using (List.mem_filter.mp hc).2

/-- A read after a write: the written byte at its own offset, the old one everywhere else. Of every list, canonical or
not. -/
theorem readByte_writeByte (m : Memory) (k j : Nat) (v : Byte) :
    (m.writeByte k v).readByte j = if j = k then v else m.readByte j := by
  unfold Memory.writeByte
  split
  · next h => rw [readByte_erase, h]
  · rw [readByte_insert _ _ _ _ (not_mem_erase m k), readByte_erase]
    split <;> rfl

theorem readByte_writeWord (m : Memory) (a j : Nat) (v : Word) :
    (m.writeWord a v).readByte j =
      if j = 2 * a then hiByte v else if j = 2 * a + 1 then loByte v else m.readByte j := by
  unfold Memory.writeWord
  rw [readByte_writeByte, readByte_writeByte]
  by_cases h : j = 2 * a
  · simp [h]
  · simp [h]

theorem joinBytes_hi_lo (w : Word) : joinBytes (hiByte w) (loByte w) = w := by
  apply BitVec.eq_of_getLsbD_eq
  intro i hi
  simp only [joinBytes, hiByte, loByte, BitVec.getLsbD_append, BitVec.getLsbD_extractLsb']
  by_cases h : i < 8
  · simp [h]
  · simp [h, show i - 8 < 8 by omega, show 8 + (i - 8) = i by omega]

@[simp] theorem hiByte_joinBytes (h l : Byte) : hiByte (joinBytes h l) = h := by
  apply BitVec.eq_of_getLsbD_eq
  intro i hi
  simp only [joinBytes, hiByte, BitVec.getLsbD_append, BitVec.getLsbD_extractLsb']
  simp [hi]

@[simp] theorem loByte_joinBytes (h l : Byte) : loByte (joinBytes h l) = l := by
  apply BitVec.eq_of_getLsbD_eq
  intro i hi
  simp only [joinBytes, loByte, BitVec.getLsbD_append, BitVec.getLsbD_extractLsb']
  simp [hi]

theorem wordAt_writeWord (m : Memory) (a b : Nat) (v : Word) :
    (m.writeWord a v).wordAt b = if b = a then v else m.wordAt b := by
  unfold Memory.wordAt
  rw [readByte_writeWord, readByte_writeWord]
  by_cases h : b = a
  · simp [h, joinBytes_hi_lo]
  · rw [if_neg (by omega), if_neg (by omega), if_neg (by omega), if_neg (by omega), if_neg h]

theorem readByte_writeBytes (bs : List Byte) (m : Memory) (k j : Nat) :
    (m.writeBytes k bs).readByte j = if h : k ≤ j ∧ j - k < bs.length then bs[j - k]'h.2 else m.readByte j := by
  induction bs generalizing m k with
  | nil => simp [Memory.writeBytes]
  | cons b bs ih =>
    rw [Memory.writeBytes, ih, readByte_writeByte]
    by_cases h1 : j = k
    · subst h1; simp
    · by_cases h2 : k + 1 ≤ j
      · have e : j - k = (j - (k + 1)) + 1 := by omega
        by_cases h3 : j - (k + 1) < bs.length
        · rw [dif_pos ⟨h2, h3⟩, dif_pos ⟨by omega, by simp; omega⟩]
          simp [e]
        · rw [dif_neg (by tauto), dif_neg (by simp; omega), if_neg h1]
      · rw [dif_neg (by omega), dif_neg (by omega), if_neg h1]

theorem wfFrom_cons (lo : Nat) (c : Host.Cell) (m : Memory) :
    Memory.wfFrom lo (c :: m) = true ↔
      lo ≤ c.1 ∧ c.1 < 8192 ∧ c.2 ≠ Memory.unlisted ∧ Memory.wfFrom (c.1 + 1) m = true := by
  simp [Memory.wfFrom, and_assoc]

theorem wfFrom_mono {lo hi : Nat} {m : Memory} (hle : lo ≤ hi) (h : Memory.wfFrom hi m = true) :
    Memory.wfFrom lo m = true := by
  cases m with
  | nil => rfl
  | cons c m =>
    rw [wfFrom_cons] at *
    exact ⟨by omega, h.2⟩

theorem wfFrom_erase {lo : Nat} {m : Memory} (k : Nat) (h : Memory.wfFrom lo m = true) :
    Memory.wfFrom lo (m.erase k) = true := by
  induction m generalizing lo with
  | nil => exact h
  | cons c m ih =>
    rw [wfFrom_cons] at h
    rw [erase_cons]
    split
    · exact wfFrom_mono (by omega) (ih h.2.2.2)
    · rw [wfFrom_cons]
      exact ⟨h.1, h.2.1, h.2.2.1, ih h.2.2.2⟩

theorem wfFrom_insert {lo k : Nat} {m : Memory} {v : Byte} (h : Memory.wfFrom lo m = true)
    (hk : ∀ c ∈ m, c.1 ≠ k) (hlo : lo ≤ k) (hhi : k < 8192) (hv : v ≠ Memory.unlisted) :
    Memory.wfFrom lo (m.insert k v) = true := by
  induction m generalizing lo with
  | nil =>
    rw [Memory.insert, wfFrom_cons]
    exact ⟨hlo, hhi, hv, rfl⟩
  | cons c m ih =>
    have hc : c.1 ≠ k := hk c (by simp)
    have hm : ∀ c ∈ m, c.1 ≠ k := fun d hd => hk d (by simp [hd])
    rw [wfFrom_cons] at h
    simp only [Memory.insert]
    split
    · rw [wfFrom_cons, wfFrom_cons]
      exact ⟨hlo, hhi, hv, by simp; omega, h.2⟩
    · rw [wfFrom_cons]
      exact ⟨h.1, h.2.1, h.2.2.1, ih h.2.2.2 hm (by omega)⟩

/-- Every write inside the array keeps the canonical form. -/
theorem wf_writeByte {m : Memory} {k : Nat} (v : Byte) (h : m.wf = true) (hk : k < 8192) :
    (m.writeByte k v).wf = true := by
  unfold Memory.writeByte
  split
  · exact wfFrom_erase k h
  · next hv => exact wfFrom_insert (wfFrom_erase k h) (not_mem_erase m k) (by omega) hk hv

theorem wf_writeWord {m : Memory} {a : Nat} (v : Word) (h : m.wf = true) (ha : a < 4096) :
    (m.writeWord a v).wf = true :=
  wf_writeByte _ (wf_writeByte _ h (by omega)) (by omega)

theorem wf_writeBytes (bs : List Byte) {m : Memory} {k : Nat} (h : m.wf = true) (hk : k + bs.length ≤ 8192) :
    (m.writeBytes k bs).wf = true := by
  induction bs generalizing m k with
  | nil => exact h
  | cons b bs ih =>
    rw [List.length_cons] at hk
    exact ih (wf_writeByte b h (by omega)) (by omega)

theorem wf_nil : Memory.wf [] = true := rfl

/-- Whatever cells a hook returns, the image is in canonical form. -/
theorem wf_ofCells (cells : List Host.Cell) : (Memory.ofCells cells).wf = true := by
  have key : ∀ (cs : List Host.Cell) (m : Memory), m.wf = true →
      (cs.foldl (fun m c => if c.1 < Config.memBytes then m.writeByte c.1 c.2 else m) m).wf = true := by
    intro cs
    induction cs with
    | nil => exact fun m h => h
    | cons c cs ih =>
      intro m h
      rw [List.foldl_cons]
      apply ih
      split
      · next hc => exact wf_writeByte _ h hc
      · exact h
  exact key cells [] wf_nil

/-- Canonical arrays that read the same hold the same cells: equal memories are equal data. -/
theorem eq_of_readByte {m n : Memory} (hm : m.wf = true) (hn : n.wf = true)
    (h : ∀ k, m.readByte k = n.readByte k) : m = n := by
  have below : ∀ (m : Memory) (lo k : Nat), Memory.wfFrom lo m = true → k < lo → m.readByte k = Memory.unlisted := by
    intro m
    induction m with
    | nil => intros; rfl
    | cons c m ih =>
      intro lo k hw hk
      rw [wfFrom_cons] at hw
      rw [readByte_cons, if_neg (by omega)]
      exact ih _ _ hw.2.2.2 (by omega)
  have key : ∀ (m n : Memory) (lo : Nat), Memory.wfFrom lo m = true → Memory.wfFrom lo n = true →
      (∀ k, lo ≤ k → m.readByte k = n.readByte k) → m = n := by
    intro m
    induction m with
    | nil =>
      intro n lo _ hn h
      cases n with
      | nil => rfl
      | cons d n =>
        rw [wfFrom_cons] at hn
        have := h d.1 hn.1
        rw [readByte_cons, if_pos rfl] at this
        exact absurd this.symm hn.2.2.1
    | cons c m ih =>
      intro n lo hm hn h
      cases n with
      | nil =>
        rw [wfFrom_cons] at hm
        have := h c.1 hm.1
        rw [readByte_cons, if_pos rfl] at this
        exact absurd this hm.2.2.1
      | cons d n =>
        rw [wfFrom_cons] at hm hn
        have hcd : c.1 = d.1 := by
          rcases Nat.lt_trichotomy c.1 d.1 with hlt | heq | hgt
          · have := h c.1 hm.1
            rw [readByte_cons, if_pos rfl, readByte_cons, if_neg (by omega),
              below n _ c.1 hn.2.2.2 (by omega)] at this
            exact absurd this hm.2.2.1
          · exact heq
          · have := h d.1 hn.1
            rw [readByte_cons, if_neg (by omega), readByte_cons, if_pos rfl,
              below m _ d.1 hm.2.2.2 (by omega)] at this
            exact absurd this.symm hn.2.2.1
        have hv : c.2 = d.2 := by
          have := h c.1 hm.1
          rwa [readByte_cons, if_pos rfl, readByte_cons, if_pos hcd.symm] at this
        have hrest : m = n := by
          refine ih n (c.1 + 1) hm.2.2.2 (hcd ▸ hn.2.2.2) fun k hk => ?_
          have := h k (by omega)
          rwa [readByte_cons, if_neg (by omega), readByte_cons, if_neg (by omega)] at this
        rw [hrest, Prod.ext hcd hv]
  exact key m n 0 hm hn fun k _ => h k

end Sys2Proof.Machine
end

