-- ==== Sys2Proof/Laws/Decode.lean ====
section
/-! SUPPORT. The fields of a word put together, selectors and opcode bytes read back, and what each decoding helper can
answer. -/

namespace Sys2Proof

theorem fieldsOf_word (f : Fields) : fieldsOf f.word = f := by
  obtain ⟨ra, rb, op⟩ := f
  simp only [fieldsOf, raField, rbField, opField, Fields.word, Fields.mk.injEq]
  refine ⟨?_, ?_, ?_⟩ <;> apply BitVec.eq_of_getLsbD_eq <;> intro i hi <;>
    simp only [BitVec.getLsbD_append, BitVec.getLsbD_extractLsb'] <;>
    simp [hi, show ¬ 12 + i < 8 by omega, show ¬ 12 + i - 8 < 4 by omega, show 12 + i - 8 - 4 = i by omega]

theorem word_fieldsOf (w : Word) : (fieldsOf w).word = w := by
  apply BitVec.eq_of_getLsbD_eq
  intro i hi
  simp only [fieldsOf, raField, rbField, opField, Fields.word, BitVec.getLsbD_append, BitVec.getLsbD_extractLsb']
  by_cases h : i < 8
  · simp [h]
  · by_cases h2 : i - 8 < 4
    · simp [h, h2, show 8 + (i - 8) = i by omega]
    · simp [h, h2, show i - 8 - 4 < 4 by omega, show 12 + (i - 8 - 4) = i by omega]

@[simp] theorem ofSelector_selector (r : Reg) : Reg.ofSelector r.selector = some r := by cases r <;> rfl

theorem ofSelector_eq_some : ∀ {n : Nibble} {r : Reg}, Reg.ofSelector n = some r → n = r.selector := by decide

theorem ofSelector_eq_none_iff : ∀ (n : Nibble), Reg.ofSelector n = none ↔ ¬(1 ≤ n.toNat ∧ n.toNat ≤ 7) := by decide

@[simp] theorem ofByte_byte (o : Opcode) : Opcode.ofByte o.byte = some o := by cases o <;> rfl

theorem ofByte_eq_some : ∀ {b : Byte} {o : Opcode}, Opcode.ofByte b = some o → b = o.byte := by
  intro b o h
  unfold Opcode.ofByte at h
  split at h <;> first | (cases h; apply BitVec.eq_of_toNat_eq; simpa [Opcode.byte] using by assumption) | cases h

theorem ofByte_eq_none_iff (b : Byte) : Opcode.ofByte b = none ↔ b.toNat = 0 ∨ 15 ≤ b.toNat := by
  unfold Opcode.ofByte
  split
  case h_15 =>
    simp only [imp_false] at *
    exact iff_of_true trivial (by omega)
  all_goals
    next hb => exact iff_of_false (by simp) (by omega)

theorem headRW_eq_some {mk : Reg → Head} {ra rb : Nibble} {h : Head} (e : headRW mk ra rb = some h) :
    ∃ r : Reg, ra = r.selector ∧ rb = 0#4 ∧ h = mk r := by
  unfold headRW at e
  split at e
  · next hb =>
    cases hr : Reg.ofSelector ra with
    | none => rw [hr] at e; cases e
    | some r => rw [hr] at e; cases e; exact ⟨r, ofSelector_eq_some hr, hb, rfl⟩
  · cases e

theorem headRR_eq_some {mk : Reg → Reg → Instr} {ra rb : Nibble} {h : Head} (e : headRR mk ra rb = some h) :
    ∃ a b : Reg, ra = a.selector ∧ rb = b.selector ∧ h = .whole (mk a b) := by
  unfold headRR at e
  split at e
  · next a b ha hb => cases e; exact ⟨a, b, ofSelector_eq_some ha, ofSelector_eq_some hb, rfl⟩
  · cases e

theorem headBare_eq_some {h0 : Head} {ra rb : Nibble} {h : Head} (e : headBare h0 ra rb = some h) :
    ra = 0#4 ∧ rb = 0#4 ∧ h = h0 := by
  unfold headBare at e
  split at e
  · next hb => cases e; exact ⟨hb.1, hb.2, rfl⟩
  · cases e

theorem headRW_eq_none_iff (mk : Reg → Head) (ra rb : Nibble) :
    headRW mk ra rb = none ↔ ¬(1 ≤ ra.toNat ∧ ra.toNat ≤ 7) ∨ rb ≠ 0#4 := by
  unfold headRW
  by_cases hb : rb = 0#4
  · rw [if_pos hb, Option.map_eq_none_iff, ofSelector_eq_none_iff]; simp [hb]
  · simp [hb]

theorem headRR_eq_none_iff (mk : Reg → Reg → Instr) (ra rb : Nibble) :
    headRR mk ra rb = none ↔ ¬(1 ≤ ra.toNat ∧ ra.toNat ≤ 7 ∧ 1 ≤ rb.toNat ∧ rb.toNat ≤ 7) := by
  unfold headRR
  cases ha : Reg.ofSelector ra with
  | none => have := (ofSelector_eq_none_iff ra).mp ha; simp; omega
  | some a =>
    cases hb : Reg.ofSelector rb with
    | none => have := (ofSelector_eq_none_iff rb).mp hb; simp; omega
    | some b =>
      have h1 := mt (ofSelector_eq_none_iff ra).mpr (by simp [ha])
      have h2 := mt (ofSelector_eq_none_iff rb).mpr (by simp [hb])
      simp; omega

theorem headBare_eq_none_iff (h : Head) (ra rb : Nibble) :
    headBare h ra rb = none ↔ ra ≠ 0#4 ∨ rb ≠ 0#4 := by
  unfold headBare
  by_cases hb : ra = 0#4 ∧ rb = 0#4
  · simp [hb.1, hb.2]
  · rw [if_neg hb]; simp; tauto

/-- The decoder on a word given by its fields. -/
theorem decodeHead_word (f : Fields) :
    decodeHead f.word =
      match Opcode.ofByte f.op with
      | none => .error (.unknownOpcode f.op)
      | some op =>
        match decodeOperands op f.ra f.rb with
        | none => .error (.illegalOperand f.word)
        | some h => .ok h := by
  have h := fieldsOf_word f
  have h1 : raField f.word = f.ra := congrArg Fields.ra h
  have h2 : rbField f.word = f.rb := congrArg Fields.rb h
  have h3 : opField f.word = f.op := congrArg Fields.op h
  unfold decodeHead
  rewrite [h1, h2, h3]
  rfl

end Sys2Proof
end

