-- ==== Sys2Proof/Laws/State.lean ====
section
/-! SUPPORT. What each update of the state does to each part of it, so that no proof unfolds a record update. -/

namespace Sys2Proof.Machine

@[simp] theorem setReg_ip (s : State) (r : Reg) (v : Word) : (s.setReg r v).ip = s.ip := by cases r <;> rfl
@[simp] theorem setReg_flags (s : State) (r : Reg) (v : Word) : (s.setReg r v).flags = s.flags := by cases r <;> rfl
@[simp] theorem setReg_fault (s : State) (r : Reg) (v : Word) : (s.setReg r v).fault = s.fault := by cases r <;> rfl
@[simp] theorem setReg_cpuId (s : State) (r : Reg) (v : Word) : (s.setReg r v).cpuId = s.cpuId := by cases r <;> rfl
@[simp] theorem setReg_mem (s : State) (r : Reg) (v : Word) : (s.setReg r v).mem = s.mem := by cases r <;> rfl
@[simp] theorem setReg_hookScript (s : State) (r : Reg) (v : Word) : (s.setReg r v).hookScript = s.hookScript := by cases r <;> rfl
@[simp] theorem setReg_hookDraws (s : State) (r : Reg) (v : Word) : (s.setReg r v).hookDraws = s.hookDraws := by cases r <;> rfl

theorem setReg_reg (s : State) (r q : Reg) (v : Word) :
    (s.setReg r v).reg q = if q = r then v else s.reg q := by cases r <;> cases q <;> rfl

@[simp] theorem setReg_reg_same (s : State) (r : Reg) (v : Word) : (s.setReg r v).reg r = v := by simp [setReg_reg]

theorem setReg_reg_other (s : State) (r q : Reg) (v : Word) (h : q ≠ r) : (s.setReg r v).reg q = s.reg q := by
  simp [setReg_reg, h]

@[simp] theorem advance_ip (s : State) (n : Nat) : (s.advance n).ip = wrap16 (s.ip.toNat + n) := rfl
@[simp] theorem advance_sp (s : State) (n : Nat) : (s.advance n).sp = s.sp := rfl
@[simp] theorem advance_bp (s : State) (n : Nat) : (s.advance n).bp = s.bp := rfl
@[simp] theorem advance_ac (s : State) (n : Nat) : (s.advance n).ac = s.ac := rfl
@[simp] theorem advance_gp1 (s : State) (n : Nat) : (s.advance n).gp1 = s.gp1 := rfl
@[simp] theorem advance_gp2 (s : State) (n : Nat) : (s.advance n).gp2 = s.gp2 := rfl
@[simp] theorem advance_gp3 (s : State) (n : Nat) : (s.advance n).gp3 = s.gp3 := rfl
@[simp] theorem advance_gp4 (s : State) (n : Nat) : (s.advance n).gp4 = s.gp4 := rfl
@[simp] theorem advance_flags (s : State) (n : Nat) : (s.advance n).flags = s.flags := rfl
@[simp] theorem advance_fault (s : State) (n : Nat) : (s.advance n).fault = s.fault := rfl
@[simp] theorem advance_cpuId (s : State) (n : Nat) : (s.advance n).cpuId = s.cpuId := rfl
@[simp] theorem advance_mem (s : State) (n : Nat) : (s.advance n).mem = s.mem := rfl
@[simp] theorem advance_hookScript (s : State) (n : Nat) : (s.advance n).hookScript = s.hookScript := rfl
@[simp] theorem advance_hookDraws (s : State) (n : Nat) : (s.advance n).hookDraws = s.hookDraws := rfl
@[simp] theorem advance_reg (s : State) (n : Nat) (r : Reg) : (s.advance n).reg r = s.reg r := by cases r <;> rfl

@[simp] theorem jumpTo_ip (s : State) (a : Word) : (s.jumpTo a).ip = a := rfl
@[simp] theorem jumpTo_sp (s : State) (a : Word) : (s.jumpTo a).sp = s.sp := rfl
@[simp] theorem jumpTo_bp (s : State) (a : Word) : (s.jumpTo a).bp = s.bp := rfl
@[simp] theorem jumpTo_ac (s : State) (a : Word) : (s.jumpTo a).ac = s.ac := rfl
@[simp] theorem jumpTo_gp1 (s : State) (a : Word) : (s.jumpTo a).gp1 = s.gp1 := rfl
@[simp] theorem jumpTo_gp2 (s : State) (a : Word) : (s.jumpTo a).gp2 = s.gp2 := rfl
@[simp] theorem jumpTo_gp3 (s : State) (a : Word) : (s.jumpTo a).gp3 = s.gp3 := rfl
@[simp] theorem jumpTo_gp4 (s : State) (a : Word) : (s.jumpTo a).gp4 = s.gp4 := rfl
@[simp] theorem jumpTo_flags (s : State) (a : Word) : (s.jumpTo a).flags = s.flags := rfl
@[simp] theorem jumpTo_fault (s : State) (a : Word) : (s.jumpTo a).fault = s.fault := rfl
@[simp] theorem jumpTo_cpuId (s : State) (a : Word) : (s.jumpTo a).cpuId = s.cpuId := rfl
@[simp] theorem jumpTo_mem (s : State) (a : Word) : (s.jumpTo a).mem = s.mem := rfl
@[simp] theorem jumpTo_hookScript (s : State) (a : Word) : (s.jumpTo a).hookScript = s.hookScript := rfl
@[simp] theorem jumpTo_hookDraws (s : State) (a : Word) : (s.jumpTo a).hookDraws = s.hookDraws := rfl
@[simp] theorem jumpTo_reg (s : State) (a : Word) (r : Reg) : (s.jumpTo a).reg r = s.reg r := by cases r <;> rfl

@[simp] theorem latch_ip (s : State) (f : LatchedFault) : (s.latch f).ip = s.ip := rfl
@[simp] theorem latch_sp (s : State) (f : LatchedFault) : (s.latch f).sp = s.sp := rfl
@[simp] theorem latch_bp (s : State) (f : LatchedFault) : (s.latch f).bp = s.bp := rfl
@[simp] theorem latch_ac (s : State) (f : LatchedFault) : (s.latch f).ac = s.ac := rfl
@[simp] theorem latch_gp1 (s : State) (f : LatchedFault) : (s.latch f).gp1 = s.gp1 := rfl
@[simp] theorem latch_gp2 (s : State) (f : LatchedFault) : (s.latch f).gp2 = s.gp2 := rfl
@[simp] theorem latch_gp3 (s : State) (f : LatchedFault) : (s.latch f).gp3 = s.gp3 := rfl
@[simp] theorem latch_gp4 (s : State) (f : LatchedFault) : (s.latch f).gp4 = s.gp4 := rfl
@[simp] theorem latch_flags (s : State) (f : LatchedFault) : (s.latch f).flags = s.flags := rfl
@[simp] theorem latch_fault (s : State) (f : LatchedFault) : (s.latch f).fault = some f := rfl
@[simp] theorem latch_cpuId (s : State) (f : LatchedFault) : (s.latch f).cpuId = s.cpuId := rfl
@[simp] theorem latch_mem (s : State) (f : LatchedFault) : (s.latch f).mem = s.mem := rfl
@[simp] theorem latch_hookScript (s : State) (f : LatchedFault) : (s.latch f).hookScript = s.hookScript := rfl
@[simp] theorem latch_hookDraws (s : State) (f : LatchedFault) : (s.latch f).hookDraws = s.hookDraws := rfl
@[simp] theorem latch_reg (s : State) (f : LatchedFault) (r : Reg) : (s.latch f).reg r = s.reg r := by cases r <;> rfl

@[simp] theorem setEqual_ip (s : State) (b : Bool) : (s.setEqual b).ip = s.ip := rfl
@[simp] theorem setEqual_sp (s : State) (b : Bool) : (s.setEqual b).sp = s.sp := rfl
@[simp] theorem setEqual_bp (s : State) (b : Bool) : (s.setEqual b).bp = s.bp := rfl
@[simp] theorem setEqual_ac (s : State) (b : Bool) : (s.setEqual b).ac = s.ac := rfl
@[simp] theorem setEqual_gp1 (s : State) (b : Bool) : (s.setEqual b).gp1 = s.gp1 := rfl
@[simp] theorem setEqual_gp2 (s : State) (b : Bool) : (s.setEqual b).gp2 = s.gp2 := rfl
@[simp] theorem setEqual_gp3 (s : State) (b : Bool) : (s.setEqual b).gp3 = s.gp3 := rfl
@[simp] theorem setEqual_gp4 (s : State) (b : Bool) : (s.setEqual b).gp4 = s.gp4 := rfl
@[simp] theorem setEqual_flags (s : State) (b : Bool) : (s.setEqual b).flags = if b then s.flags ||| 0x0001#16 else s.flags &&& 0xFFFE#16 := rfl
@[simp] theorem setEqual_fault (s : State) (b : Bool) : (s.setEqual b).fault = s.fault := rfl
@[simp] theorem setEqual_cpuId (s : State) (b : Bool) : (s.setEqual b).cpuId = s.cpuId := rfl
@[simp] theorem setEqual_mem (s : State) (b : Bool) : (s.setEqual b).mem = s.mem := rfl
@[simp] theorem setEqual_hookScript (s : State) (b : Bool) : (s.setEqual b).hookScript = s.hookScript := rfl
@[simp] theorem setEqual_hookDraws (s : State) (b : Bool) : (s.setEqual b).hookDraws = s.hookDraws := rfl
@[simp] theorem setEqual_reg (s : State) (b : Bool) (r : Reg) : (s.setEqual b).reg r = s.reg r := by cases r <;> rfl

@[simp] theorem setHalt_ip (s : State) : (s.setHalt).ip = s.ip := rfl
@[simp] theorem setHalt_sp (s : State) : (s.setHalt).sp = s.sp := rfl
@[simp] theorem setHalt_bp (s : State) : (s.setHalt).bp = s.bp := rfl
@[simp] theorem setHalt_ac (s : State) : (s.setHalt).ac = s.ac := rfl
@[simp] theorem setHalt_gp1 (s : State) : (s.setHalt).gp1 = s.gp1 := rfl
@[simp] theorem setHalt_gp2 (s : State) : (s.setHalt).gp2 = s.gp2 := rfl
@[simp] theorem setHalt_gp3 (s : State) : (s.setHalt).gp3 = s.gp3 := rfl
@[simp] theorem setHalt_gp4 (s : State) : (s.setHalt).gp4 = s.gp4 := rfl
@[simp] theorem setHalt_flags (s : State) : (s.setHalt).flags = s.flags ||| 0x0002#16 := rfl
@[simp] theorem setHalt_fault (s : State) : (s.setHalt).fault = s.fault := rfl
@[simp] theorem setHalt_cpuId (s : State) : (s.setHalt).cpuId = s.cpuId := rfl
@[simp] theorem setHalt_mem (s : State) : (s.setHalt).mem = s.mem := rfl
@[simp] theorem setHalt_hookScript (s : State) : (s.setHalt).hookScript = s.hookScript := rfl
@[simp] theorem setHalt_hookDraws (s : State) : (s.setHalt).hookDraws = s.hookDraws := rfl
@[simp] theorem setHalt_reg (s : State) (r : Reg) : (s.setHalt).reg r = s.reg r := by cases r <;> rfl

@[simp] theorem withMem_reg (s : State) (m : Memory) (r : Reg) : ({ s with mem := m }).reg r = s.reg r := by cases r <;> rfl

@[simp] theorem hookReturn_ip (s : State) (h : HookRegs) (c : List Host.Cell) : (s.hookReturn h c).ip = s.ip := rfl
@[simp] theorem hookReturn_sp (s : State) (h : HookRegs) (c : List Host.Cell) : (s.hookReturn h c).sp = h.sp := rfl
@[simp] theorem hookReturn_bp (s : State) (h : HookRegs) (c : List Host.Cell) : (s.hookReturn h c).bp = h.bp := rfl
@[simp] theorem hookReturn_ac (s : State) (h : HookRegs) (c : List Host.Cell) : (s.hookReturn h c).ac = h.ac := rfl
@[simp] theorem hookReturn_gp1 (s : State) (h : HookRegs) (c : List Host.Cell) : (s.hookReturn h c).gp1 = h.gp1 := rfl
@[simp] theorem hookReturn_gp2 (s : State) (h : HookRegs) (c : List Host.Cell) : (s.hookReturn h c).gp2 = h.gp2 := rfl
@[simp] theorem hookReturn_gp3 (s : State) (h : HookRegs) (c : List Host.Cell) : (s.hookReturn h c).gp3 = h.gp3 := rfl
@[simp] theorem hookReturn_gp4 (s : State) (h : HookRegs) (c : List Host.Cell) : (s.hookReturn h c).gp4 = h.gp4 := rfl
@[simp] theorem hookReturn_flags (s : State) (h : HookRegs) (c : List Host.Cell) : (s.hookReturn h c).flags = s.flags := rfl
@[simp] theorem hookReturn_fault (s : State) (h : HookRegs) (c : List Host.Cell) : (s.hookReturn h c).fault = s.fault := rfl
@[simp] theorem hookReturn_cpuId (s : State) (h : HookRegs) (c : List Host.Cell) : (s.hookReturn h c).cpuId = s.cpuId := rfl
@[simp] theorem hookReturn_mem (s : State) (h : HookRegs) (c : List Host.Cell) : (s.hookReturn h c).mem = Memory.ofCells c := rfl
@[simp] theorem hookReturn_hookScript (s : State) (h : HookRegs) (c : List Host.Cell) : (s.hookReturn h c).hookScript = s.hookScript.tail := rfl
@[simp] theorem hookReturn_hookDraws (s : State) (h : HookRegs) (c : List Host.Cell) : (s.hookReturn h c).hookDraws = s.hookDraws + 1 := rfl
@[simp] theorem hookReturn_reg (s : State) (h : HookRegs) (c : List Host.Cell) (r : Reg) : (s.hookReturn h c).reg r = h.get r := by cases r <;> rfl

/-- Two states with the same parts are the same state. -/
theorem State.eq_of_parts {s t : State} (hip : t.ip = s.ip) (hreg : ∀ r, t.reg r = s.reg r) (hflags : t.flags = s.flags)
    (hfault : t.fault = s.fault) (hid : t.cpuId = s.cpuId) (hmem : t.mem = s.mem)
    (hscript : t.hookScript = s.hookScript) (hdraws : t.hookDraws = s.hookDraws) : t = s := by
  have h1 := hreg .sp
  have h2 := hreg .bp
  have h3 := hreg .ac
  have h4 := hreg .gp1
  have h5 := hreg .gp2
  have h6 := hreg .gp3
  have h7 := hreg .gp4
  cases s
  cases t
  simp only [State.reg] at *
  subst hip h1 h2 h3 h4 h5 h6 h7 hflags hfault hid hmem hscript hdraws
  rfl

end Sys2Proof.Machine
end

