-- ==== Sys2Proof/Laws/Ops.lean ====
section
/-! SUPPORT. One lemma for each shared operation: the flag bits, the memory port, commit, the status. -/

namespace Sys2Proof.Machine

@[simp] theorem wrap16_toNat (n : Nat) : (wrap16 n).toNat = n % 65536 := by simp [wrap16]

theorem wrap16_of_lt (n : Nat) (h : n < 65536) : (wrap16 n).toNat = n := by rw [wrap16_toNat]; omega

@[simp] theorem equal_setEqual (s : State) (b : Bool) : (s.setEqual b).equal = b := by
  cases b <;> simp [State.equal]

@[simp] theorem halted_setEqual (s : State) (b : Bool) : (s.setEqual b).halted = s.halted := by
  cases b <;> simp [State.halted]

@[simp] theorem equal_setHalt (s : State) : s.setHalt.equal = s.equal := by
  simp [State.equal]

@[simp] theorem halted_setHalt (s : State) : s.setHalt.halted = true := by
  simp [State.halted]

/-- Every bit but EQUAL is as it was. -/
theorem setEqual_other_bits (s : State) (b : Bool) (i : Nat) (h : i ≠ 0) :
    (s.setEqual b).flags.getLsbD i = s.flags.getLsbD i := by
  by_cases hi : i < 16
  · rw [setEqual_flags]
    interval_cases i <;> first | exact absurd rfl h | (cases b <;> simp)
  · rw [BitVec.getLsbD_of_ge _ _ (by omega), BitVec.getLsbD_of_ge _ _ (by omega)]

/-- Every bit but HALT is as it was. -/
theorem setHalt_other_bits (s : State) (i : Nat) (h : i ≠ 1) :
    s.setHalt.flags.getLsbD i = s.flags.getLsbD i := by
  by_cases hi : i < 16
  · rw [setHalt_flags]
    interval_cases i <;> first | exact absurd rfl h | simp
  · rw [BitVec.getLsbD_of_ge _ _ (by omega), BitVec.getLsbD_of_ge _ _ (by omega)]

/-- The reserved bits stay 0 under a write of EQUAL. -/
theorem setEqual_reserved {s : State} (b : Bool) (h : s.flags &&& 0xFFFC#16 = 0#16) :
    (s.setEqual b).flags &&& 0xFFFC#16 = 0#16 := by
  rw [setEqual_flags]
  cases b
  · rw [if_neg (by simp), BitVec.and_assoc, show (0xFFFE#16 &&& 0xFFFC#16) = 0xFFFC#16 by decide, h]
  · rw [if_pos rfl, BitVec.and_comm, BitVec.and_or_distrib_left, BitVec.and_comm, h]
    decide

/-- The reserved bits stay 0 under a write of HALT. -/
theorem setHalt_reserved {s : State} (h : s.flags &&& 0xFFFC#16 = 0#16) :
    s.setHalt.flags &&& 0xFFFC#16 = 0#16 := by
  rw [setHalt_flags, BitVec.and_comm, BitVec.and_or_distrib_left, BitVec.and_comm, h]
  decide

theorem inBounds_iff (a : Word) : inBounds a = true ↔ a.toNat < 4096 := by simp [inBounds]

theorem memRead_of_lt {s : State} {a : Word} (h : a.toNat < 4096) : s.memRead a = .ok (s.mem.wordAt a.toNat) := by
  simp [State.memRead, inBounds_iff, h]

theorem memRead_of_ge {s : State} {a : Word} (h : 4096 ≤ a.toNat) : s.memRead a = .error (.outOfBoundsAccess a) := by
  simp [State.memRead, inBounds_iff, h]

theorem memWrite_of_lt {s : State} {a v : Word} (h : a.toNat < 4096) :
    s.memWrite a v = .ok { s with mem := s.mem.writeWord a.toNat v } := by
  simp [State.memWrite, inBounds_iff, h]

theorem memWrite_of_ge {s : State} {a v : Word} (h : 4096 ≤ a.toNat) :
    s.memWrite a v = .error (.outOfBoundsAccess a) := by
  simp [State.memWrite, inBounds_iff, h]

@[simp] theorem commit_ok (s t : State) : s.commit (.ok t) = .next t := rfl

@[simp] theorem commit_error (s : State) (f : LatchedFault) : s.commit (.error f) = .next (s.latch f) := rfl

@[simp] theorem raise_eq (s : State) (f : LatchedFault) : raise f s = .next (s.latch f) := rfl

theorem latch_eq (s : State) (f : LatchedFault) : s.latch f = { s with fault := some f } := rfl

theorem status_running_iff (s : State) : s.status = .running ↔ s.fault = none ∧ s.halted = false := by
  unfold State.status
  split
  · next f h => simp [h]
  · next h => cases hh : s.halted <;> simp [h]

theorem status_halted_iff (s : State) : s.status = .halted ↔ s.fault = none ∧ s.halted = true := by
  unfold State.status
  split
  · next f h => simp [h]
  · next h => cases hh : s.halted <;> simp [h]

theorem status_faulted_iff (s : State) (f : LatchedFault) : s.status = .faulted f ↔ s.fault = some f := by
  unfold State.status
  split
  · next g h => simp [h]
  · next h => cases hh : s.halted <;> simp [h]

end Sys2Proof.Machine
end

