-- ==== Sys2Proof/Laws/PerInstr.lean ====
section
/-! SUPPORT. For every instruction: its encoding has as many words as its format says, its first word is well formed,
and its opcode byte names it (R66, R69, R74, R77). -/

namespace Sys2Proof.Laws.Shape

/-- The shape of an instruction's encoding. -/
def Statement (i : Instr) : Prop :=
  (encode i).length = i.words ∧ i.fields.wellFormed = true ∧ i.fields.format.map Format.words = some i.words ∧
    Opcode.ofByte i.fields.op = some i.opcode

/-- In formats RW and RR the selectors alone are variable: a finite question. -/
theorem lrm (d : Reg) (addr : Word) : Statement (.lrm d addr) := by cases d <;> exact ⟨rfl, rfl, rfl, rfl⟩

theorem lra (d : Reg) (imm : Word) : Statement (.lra d imm) := by cases d <;> exact ⟨rfl, rfl, rfl, rfl⟩

theorem srm (src : Reg) (addr : Word) : Statement (.srm src addr) := by cases src <;> exact ⟨rfl, rfl, rfl, rfl⟩

theorem mvr (src d : Reg) : Statement (.mvr src d) := by cases src <;> cases d <;> exact ⟨rfl, rfl, rfl, rfl⟩

theorem add (a b : Reg) : Statement (.add a b) := by cases a <;> cases b <;> exact ⟨rfl, rfl, rfl, rfl⟩

theorem sub (a b : Reg) : Statement (.sub a b) := by cases a <;> cases b <;> exact ⟨rfl, rfl, rfl, rfl⟩

theorem mul (a b : Reg) : Statement (.mul a b) := by cases a <;> cases b <;> exact ⟨rfl, rfl, rfl, rfl⟩

theorem div (a b : Reg) : Statement (.div a b) := by cases a <;> cases b <;> exact ⟨rfl, rfl, rfl, rfl⟩

theorem cmp (a b : Reg) : Statement (.cmp a b) := by cases a <;> cases b <;> exact ⟨rfl, rfl, rfl, rfl⟩

theorem jmp (addr : Word) : Statement (.jmp addr) := ⟨rfl, rfl, rfl, rfl⟩

theorem je (addr : Word) : Statement (.je addr) := ⟨rfl, rfl, rfl, rfl⟩

theorem jne (addr : Word) : Statement (.jne addr) := ⟨rfl, rfl, rfl, rfl⟩

theorem sys : Statement .sys := ⟨rfl, rfl, rfl, rfl⟩

theorem hlt : Statement .hlt := ⟨rfl, rfl, rfl, rfl⟩

end Sys2Proof.Laws.Shape
end

