-- ==== Sys2Proof/Laws/Step.lean ====
section
/-! SUPPORT. What a fetch, an instruction and a step can do, each said once. -/

namespace Sys2Proof.Machine

theorem fetch_of_ge {s : State} (h : 4096 ≤ s.ip.toNat) : s.fetch = .error (.outOfBoundsAccess s.ip) := by
  simp [State.fetch, memRead_of_ge h]

theorem fetch_of_decode_error {s : State} {e : DecodeError} (h : s.ip.toNat < 4096)
    (hd : decodeHead (s.mem.wordAt s.ip.toNat) = .error e) : s.fetch = .error (decodeFault e s.ip) := by
  simp [State.fetch, memRead_of_lt h, hd]

theorem fetch_of_decode_ok {s : State} {hd : Head} (h : s.ip.toNat < 4096)
    (hok : decodeHead (s.mem.wordAt s.ip.toNat) = .ok hd) : s.fetch = s.fetchOperand hd := by
  simp [State.fetch, memRead_of_lt h, hok]

theorem words_eq_one_or_two (h : Head) : h.words = 1 ∨ h.words = 2 := by cases h <;> simp [Head.words]

theorem complete_words (h : Head) (w : Word) : (h.complete w).words = 1 ∨ (h.complete w).words = 2 := by
  unfold Instr.words
  split <;> simp

/-- The next word's address, as long as ip is inside memory. -/
theorem next_ip_toNat {s : State} (h : s.ip.toNat < 4096) : (wrap16 (s.ip.toNat + 1)).toNat = s.ip.toNat + 1 :=
  wrap16_of_lt _ (by omega)

theorem fetchOperand_one {s : State} {h : Head} (hw : h.words = 1) : s.fetchOperand h = .ok (h.complete 0#16) := by
  simp [State.fetchOperand, hw]

theorem fetchOperand_two {s : State} {h : Head} (hw : h.words = 2) (hlt : s.ip.toNat + 1 < 4096) :
    s.fetchOperand h = .ok (h.complete (s.mem.wordAt (s.ip.toNat + 1))) := by
  have e := next_ip_toNat (s := s) (by omega)
  have hr := memRead_of_lt (s := s) (a := wrap16 (s.ip.toNat + 1)) (by omega)
  rw [e] at hr
  simp [State.fetchOperand, hw, hr]

theorem fetchOperand_beyond {s : State} {h : Head} (hw : h.words = 2) (hip : s.ip = 4095#16) :
    s.fetchOperand h = .error (.outOfBoundsAccess 4096#16) := by
  simp [State.fetchOperand, hw, hip, show wrap16 4096 = 4096#16 by decide, memRead_of_ge]

/-- A fetch that answers an instruction: its words are inside memory and decode to it. -/
theorem fetch_ok_cases {s : State} {i : Instr} (h : s.fetch = .ok i) :
    s.ip.toNat < 4096 ∧ ∃ hd, decodeHead (s.mem.wordAt s.ip.toNat) = .ok hd ∧
      ((hd.words = 1 ∧ i = hd.complete 0#16) ∨
        (hd.words = 2 ∧ s.ip.toNat + 1 < 4096 ∧ i = hd.complete (s.mem.wordAt (s.ip.toNat + 1)))) := by
  by_cases hip : s.ip.toNat < 4096
  · refine ⟨hip, ?_⟩
    cases hd : decodeHead (s.mem.wordAt s.ip.toNat) with
    | error e => rw [fetch_of_decode_error hip hd] at h; cases h
    | ok hd' =>
      rw [fetch_of_decode_ok hip hd] at h
      refine ⟨hd', rfl, ?_⟩
      rcases words_eq_one_or_two hd' with hw | hw
      · rw [fetchOperand_one hw] at h
        cases h
        exact .inl ⟨hw, rfl⟩
      · by_cases hip2 : s.ip.toNat + 1 < 4096
        · rw [fetchOperand_two hw hip2] at h
          cases h
          exact .inr ⟨hw, hip2, rfl⟩
        · rw [fetchOperand_beyond hw (BitVec.eq_of_toNat_eq (by simp; omega))] at h
          cases h
  · rw [fetch_of_ge (by omega)] at h
    cases h

/-- An instruction that answers a next state: its own effect, or its own fault latched and nothing else. -/
theorem exec_next_cases {i : Instr} {s t : State} (h : exec i s = .next t) :
    match i with
    | .lrm d a => (a.toNat < 4096 ∧ t = (s.setReg d (s.mem.wordAt a.toNat)).advance 2) ∨
        (4096 ≤ a.toNat ∧ t = s.latch (.outOfBoundsAccess a))
    | .lra d imm => t = (s.setReg d imm).advance 2
    | .srm r a => (a.toNat < 4096 ∧ t = ({ s with mem := s.mem.writeWord a.toNat (s.reg r) } : State).advance 2) ∨
        (4096 ≤ a.toNat ∧ t = s.latch (.outOfBoundsAccess a))
    | .mvr r d => t = (s.setReg d (s.reg r)).advance 1
    | .add a b => t = (s.setReg a (aluAdd (s.reg a) (s.reg b))).advance 1
    | .sub a b => t = (s.setReg a (aluSub (s.reg a) (s.reg b))).advance 1
    | .mul a b => t = (s.setReg a (aluMul (s.reg a) (s.reg b))).advance 1
    | .div a b => (s.reg b = 0#16 ∧ t = s.latch (.divisionByZero s.ip)) ∨
        (s.reg b ≠ 0#16 ∧ t = (s.setReg a (aluDiv (s.reg a) (s.reg b))).advance 1)
    | .cmp a b => t = (s.setEqual (s.reg a == s.reg b)).advance 1
    | .jmp a => t = s.jumpTo a
    | .je a => t = if s.equal then s.jumpTo a else s.advance 2
    | .jne a => t = if s.equal then s.advance 2 else s.jumpTo a
    | .sys => (∃ r c, s.hookOutcome = .ok r c ∧ t = (s.hookReturn r c).advance 1) ∨
        (∃ code, s.hookOutcome = .fail code ∧ t = s.latch (.sysFault code s.ip))
    | .hlt => t = s.setHalt := by
  cases i with
  | lrm d a =>
    by_cases ha : a.toNat < 4096
    · simp only [exec, execLrm, memRead_of_lt ha, Except.map, commit_ok, Host.Outcome.next.injEq] at h
      exact .inl ⟨ha, h.symm⟩
    · simp only [exec, execLrm, memRead_of_ge (Nat.le_of_not_lt ha), Except.map, commit_error,
        Host.Outcome.next.injEq] at h
      exact .inr ⟨by omega, h.symm⟩
  | srm r a =>
    by_cases ha : a.toNat < 4096
    · simp only [exec, execSrm, memWrite_of_lt ha, Except.map, commit_ok, Host.Outcome.next.injEq] at h
      exact .inl ⟨ha, h.symm⟩
    · simp only [exec, execSrm, memWrite_of_ge (Nat.le_of_not_lt ha), Except.map, commit_error,
        Host.Outcome.next.injEq] at h
      exact .inr ⟨by omega, h.symm⟩
  | div a b =>
    by_cases hb : s.reg b = 0#16
    · simp only [exec, execDiv, hb, if_true, raise_eq, Host.Outcome.next.injEq] at h
      exact .inl ⟨hb, h.symm⟩
    · simp only [exec, execDiv, hb, if_false, Host.Outcome.next.injEq] at h
      exact .inr ⟨hb, h.symm⟩
  | sys =>
    simp only [exec, execSys] at h
    split at h
    · next r c e => exact .inl ⟨r, c, e, (Host.Outcome.next.inj h).symm⟩
    · next code e => exact .inr ⟨code, e, (Host.Outcome.next.inj h).symm⟩
    · cases h
  | lra | mvr | add | sub | mul | cmp | jmp | je | jne | hlt => exact (Host.Outcome.next.inj h).symm

theorem step_of_not_running {s : State} (h : s.status ≠ .running) : step s = .next s := by
  unfold step
  split
  · rfl
  · rfl
  · next e => exact absurd e h

theorem step_of_fetch_error {s : State} {f : LatchedFault} (h : s.status = .running) (e : s.fetch = .error f) :
    step s = .next (s.latch f) := by
  simp [step, h, e]

theorem step_of_fetch_ok {s : State} {i : Instr} (h : s.status = .running) (e : s.fetch = .ok i) :
    step s = exec i s := by
  simp [step, h, e]

/-- A step that answers a next state: a no-op, a fault before execution, or an instruction. -/
theorem step_next_cases {s t : State} (h : step s = .next t) :
    (s.status ≠ .running ∧ t = s) ∨
    (s.status = .running ∧ ∃ f, s.fetch = .error f ∧ t = s.latch f) ∨
    (s.status = .running ∧ ∃ i, s.fetch = .ok i ∧ exec i s = .next t) := by
  by_cases hs : s.status = .running
  · cases hf : s.fetch with
    | error f =>
      rw [step_of_fetch_error hs hf] at h
      exact .inr (.inl ⟨hs, f, rfl, (Host.Outcome.next.inj h).symm⟩)
    | ok i =>
      rw [step_of_fetch_ok hs hf] at h
      exact .inr (.inr ⟨hs, i, rfl, h⟩)
  · rw [step_of_not_running hs] at h
    exact .inl ⟨hs, (Host.Outcome.next.inj h).symm⟩

/-- A state that a step leaves as it is stays so for any number of steps. -/
theorem run_of_fixed_of (M : Host.Core) {s : M.State} (h : M.step s = .next s) (n : Nat) : M.run n s = .next s := by
  induction n with
  | zero => rfl
  | succ n ih => simp only [Host.Core.run, h, ih]

theorem run_of_fixed {s : State} (h : step s = .next s) (n : Nat) : Host.Core.run core n s = .next s :=
  run_of_fixed_of core h n

end Sys2Proof.Machine
end

