-- ==== Sys2Proof/Machine/Assembly.lean ====
section
/-! DEFINITION. The spec's assembly language (R27, R85, R86, decision D18): a program text as characters, cut into lines and
parsed into items, and the words the items assemble to from word 0. No part of the machine's step. What R85 leaves open
of the text is log 16's. -/

namespace Sys2Proof.Machine

/-- One line's content (R85). A label stands for the word address of the next word. -/
inductive AsmItem where
  /-- `name:` -/
  | label (name : List Char)
  /-- `.word v` -/
  | word (v : Word)
  /-- `.word name` -/
  | wordOf (name : List Char)
  /-- An instruction whose operands are registers and numbers. -/
  | instr (i : Instr)
  /-- An instruction whose address or immediate is a label; the operand word of i stands for it. -/
  | instrAt (i : Instr) (name : List Char)
deriving DecidableEq, Repr

/-- How many words the line places. -/
def AsmItem.size : AsmItem → Nat
  | .label _ => 0
  | .word _ | .wordOf _ => 1
  | .instr i | .instrAt i _ => i.words

/-- Where each label points, the program placed from word a on. -/
def asmLabels : Nat → List AsmItem → List (List Char × Nat)
  | _, [] => []
  | a, .label name :: rest => (name, a) :: asmLabels a rest
  | a, item :: rest => asmLabels (a + item.size) rest

/-- The address of a label, as a Word; none if it is not defined or is no Word (R85: 0 to 65535). -/
def asmLookup (labels : List (List Char × Nat)) (name : List Char) : Option Word :=
  match labels with
  | [] => none
  | (n, a) :: rest => if n = name then (if a < 65536 then some (BitVec.ofNat 16 a) else none) else asmLookup rest name

/-- The instruction with another operand word (R68); none if it has no operand word. -/
def instrWithOperand (i : Instr) (w : Word) : Option Instr :=
  match i with
  | .lrm d _ => some (.lrm d w)
  | .lra d _ => some (.lra d w)
  | .srm src _ => some (.srm src w)
  | .jmp _ => some (.jmp w)
  | .je _ => some (.je w)
  | .jne _ => some (.jne w)
  | .mvr _ _ | .add _ _ | .sub _ _ | .mul _ _ | .div _ _ | .cmp _ _ | .sys | .hlt => none

/-- The words of one line: every instruction assembles to exactly one encoding (R86). -/
def AsmItem.words (labels : List (List Char × Nat)) : AsmItem → Option (List Word)
  | .label _ => some []
  | .word v => some [v]
  | .wordOf name => (asmLookup labels name).map fun w => [w]
  | .instr i => some (encode i)
  | .instrAt i name => (asmLookup labels name).bind fun w => (instrWithOperand i w).map encode

/-- The words of the lines in order. -/
def asmWords (labels : List (List Char × Nat)) : List AsmItem → Option (List Word)
  | [] => some []
  | item :: rest =>
    match item.words labels, asmWords labels rest with
    | some ws, some more => some (ws ++ more)
    | _, _ => none

/-- The words of a program placed from word 0 (R85); none if a label it uses is not defined, or one is defined twice
(log 16). -/
def assemble (items : List AsmItem) : Option (List Word) :=
  if ((asmLabels 0 items).map Prod.fst).Nodup then asmWords (asmLabels 0 items) items else none

/-- A list of characters cut at every c. -/
def splitAtChar (c : Char) : List Char → List (List Char)
  | [] => [[]]
  | x :: rest =>
    if x = c then [] :: splitAtChar c rest
    else
      match splitAtChar c rest with
      | [] => [[x]]
      | first :: more => (x :: first) :: more

/-- Without the blanks at both ends. -/
def trimBlanks (cs : List Char) : List Char := ((cs.dropWhile (· = ' ')).reverse.dropWhile (· = ' ')).reverse

/-- A register name (R85): `ip` and `flags` are none. -/
def asmRegister (cs : List Char) : Option Reg :=
  match cs with
  | ['s', 'p'] => some .sp
  | ['b', 'p'] => some .bp
  | ['a', 'c'] => some .ac
  | ['g', 'p', '1'] => some .gp1
  | ['g', 'p', '2'] => some .gp2
  | ['g', 'p', '3'] => some .gp3
  | ['g', 'p', '4'] => some .gp4
  | _ => none

/-- A mnemonic (R74, R85: upper case). -/
def asmMnemonic (cs : List Char) : Option Opcode :=
  match cs with
  | ['L', 'R', 'M'] => some .lrm
  | ['L', 'R', 'A'] => some .lra
  | ['S', 'R', 'M'] => some .srm
  | ['M', 'V', 'R'] => some .mvr
  | ['A', 'D', 'D'] => some .add
  | ['S', 'U', 'B'] => some .sub
  | ['M', 'U', 'L'] => some .mul
  | ['D', 'I', 'V'] => some .div
  | ['C', 'M', 'P'] => some .cmp
  | ['J', 'M', 'P'] => some .jmp
  | ['J', 'E'] => some .je
  | ['J', 'N', 'E'] => some .jne
  | ['S', 'Y', 'S'] => some .sys
  | ['H', 'L', 'T'] => some .hlt
  | _ => none

/-- The value of a digit, hexadecimal ones in either case. -/
def asmDigit (c : Char) : Option Nat :=
  if '0'.toNat ≤ c.toNat ∧ c.toNat ≤ '9'.toNat then some (c.toNat - '0'.toNat)
  else if 'A'.toNat ≤ c.toNat ∧ c.toNat ≤ 'F'.toNat then some (c.toNat - 'A'.toNat + 10)
  else if 'a'.toNat ≤ c.toNat ∧ c.toNat ≤ 'f'.toNat then some (c.toNat - 'a'.toNat + 10)
  else none

/-- The digits of a number in a base, the number before them being n. -/
def asmDigits (base : Nat) (n : Nat) : List Char → Option Nat
  | [] => some n
  | c :: rest => (asmDigit c).bind fun d => if d < base then asmDigits base (base * n + d) rest else none

/-- A number (R85): decimal or hexadecimal, 0 to 65535. -/
def asmNumber (cs : List Char) : Option Word :=
  let n := match cs with
    | [] | ['0', 'x'] => none
    | '0' :: 'x' :: digits => asmDigits 16 0 digits
    | digits => asmDigits 10 0 digits
  n.bind fun v => if v < 65536 then some (BitVec.ofNat 16 v) else none

/-- Whether c may stand in a label's name (log 16): a letter or `_`; a digit too, but not first. -/
def asmNameChar (c : Char) : Bool := c.isAlpha || c = '_'

/-- A label's name (log 16); no register name, and not `ip` or `flags`, which are no operands (R85). -/
def asmName (cs : List Char) : Option (List Char) :=
  match cs with
  | [] => none
  | c :: rest =>
    if asmNameChar c && rest.all (fun x => asmNameChar x || x.isDigit) && (asmRegister cs).isNone &&
        decide (cs ≠ ['i', 'p'] ∧ cs ≠ ['f', 'l', 'a', 'g', 's']) then some cs
    else none

/-- One operand. -/
inductive AsmOperand where
  | reg (r : Reg)
  | num (w : Word)
  | name (n : List Char)
deriving DecidableEq, Repr

/-- The operand these characters write, if they write one. -/
def asmOperand (cs : List Char) : Option AsmOperand :=
  match asmRegister cs, asmNumber cs, asmName cs with
  | some r, _, _ => some (.reg r)
  | none, some w, _ => some (.num w)
  | none, none, some n => some (.name n)
  | none, none, none => none

/-- An instruction whose operand word is written by x: a number, or a label wherever a number may stand (R85). -/
def AsmOperand.item (mk : Word → Instr) (x : AsmOperand) : Option AsmItem :=
  match x with
  | .reg _ => none
  | .num w => some (.instr (mk w))
  | .name n => some (.instrAt (mk 0#16) n)

/-- The instruction of a mnemonic and its operands, in the source table's order (R27, R85). -/
def asmInstr (op : Opcode) (xs : List AsmOperand) : Option AsmItem :=
  match op, xs with
  | .lrm, [.reg d, x] => x.item (.lrm d)
  | .lra, [.reg d, x] => x.item (.lra d)
  | .srm, [.reg src, x] => x.item (.srm src)
  | .mvr, [.reg src, .reg d] => some (.instr (.mvr src d))
  | .add, [.reg a, .reg b] => some (.instr (.add a b))
  | .sub, [.reg a, .reg b] => some (.instr (.sub a b))
  | .mul, [.reg a, .reg b] => some (.instr (.mul a b))
  | .div, [.reg a, .reg b] => some (.instr (.div a b))
  | .cmp, [.reg a, .reg b] => some (.instr (.cmp a b))
  | .jmp, [x] => x.item .jmp
  | .je, [x] => x.item .je
  | .jne, [x] => x.item .jne
  | .sys, [] => some (.instr .sys)
  | .hlt, [] => some (.instr .hlt)
  | _, _ => none

/-- The operands after a mnemonic, separated by commas (R85). -/
def asmOperands (cs : List Char) : Option (List AsmOperand) :=
  if cs = [] then some [] else ((splitAtChar ',' cs).map trimBlanks).mapM asmOperand

/-- What stands on a line beside its label and its comment: nothing, data, or an instruction (R85). -/
def asmBody (cs : List Char) : Option (List AsmItem) :=
  if cs = [] then some []
  else
    let head := cs.takeWhile (· ≠ ' ')
    (asmOperands (trimBlanks (cs.dropWhile (· ≠ ' ')))).bind fun xs =>
      if head = ['.', 'w', 'o', 'r', 'd'] then
        match xs with
        | [.num w] => some [.word w]
        | [.name n] => some [.wordOf n]
        | _ => none
      else (asmMnemonic head).bind fun op => (asmInstr op xs).map fun i => [i]

/-- One line of text (R85): `;` starts a comment, `name:` at the start defines a label. -/
def asmLine (cs : List Char) : Option (List AsmItem) :=
  match splitAtChar ':' (cs.takeWhile (· ≠ ';')) with
  | [body] => asmBody (trimBlanks body)
  | [name, body] => (asmName (trimBlanks name)).bind fun n => (asmBody (trimBlanks body)).map (.label n :: ·)
  | _ => none

/-- A program text, one instruction per line (R85), and the words it assembles to. -/
def assembleText (text : List Char) : Option (List Word) :=
  (((splitAtChar '\n' text).mapM asmLine).map List.flatten).bind assemble

end Sys2Proof.Machine
end

