-- ==== Sys2Proof/Tests/Slice0.lean ====
section
/-! SUPPORT. Tests of the model against the spec's own examples and vectors (R87, 95_test_vectors.md), the smoke test of
WellFormed, and for each statement with hypotheses a witness that meets them. Every expected result is the spec's. -/

namespace Sys2Proof.Tests

open Sys2Proof.Machine

/-! ### Helpers -/

/-- Whether the words decode to exactly this instruction. -/
def decodesTo (ws : List Word) (i : Instr) : Bool :=
  match decodeWords ws with
  | .ok (j, []) => decide (j = i)
  | _ => false

/-- Whether decoding the words is rejected with this error. -/
def rejectedWith (ws : List Word) (e : DecodeError) : Bool :=
  match decodeWords ws with
  | .error e' => decide (e' = e)
  | .ok _ => false

/-- Whether the outcome is a next state with this property. -/
def yields (o : Host.Outcome State Fault Refusal) (p : State → Bool) : Bool :=
  match o with
  | .next t => p t
  | _ => false

/-- The reset state with these words at ip and ip + 1. -/
def at_ (ip w0 w1 : Word) : State := ({ State.reset with ip := ip } : State).placeAtIp w0 w1

/-- The reset state whose runtime gives these outcomes. -/
def withHook (os : List HookOutcome) : State := { State.reset with ac := 7#16, ip := 2#16, hookScript := os }

/-! ### WellFormed: an ill-formed word for each check, which the check refuses -/

theorem test_wellFormed_accepts_add : (fieldsOf 0x4505#16).wellFormed = true := by decide

theorem test_opcodeKnown_refuses_0x00_and_0x0F :
    (fieldsOf 0x0000#16).opcodeKnown = false ∧ (fieldsOf 0x450F#16).opcodeKnown = false := by decide

theorem test_selectorsLegal_refuses_ip_and_8_to_15 :
    (fieldsOf 0x0405#16).selectorsLegal = false ∧ (fieldsOf 0x8405#16).selectorsLegal = false ∧
      (fieldsOf 0x4F09#16).selectorsLegal = false ∧ (fieldsOf 0x0001#16).selectorsLegal = false := by decide

theorem test_reservedClear_refuses_set_bits :
    (fieldsOf 0x4102#16).reservedClear = false ∧ (fieldsOf 0x010E#16).reservedClear = false ∧
      (fieldsOf 0x100A#16).reservedClear = false := by decide

/-! ### Decoding: each constructor's word written out bit by bit from the patterns of R69, R70, R71, R74 -/

theorem test_decode_lrm : decodesTo [0b0100000000000001#16, 0b0000000100000000#16] (.lrm .gp1 256#16) = true := by decide
theorem test_decode_lra : decodesTo [0b0100000000000010#16, 0b0000000000000101#16] (.lra .gp1 5#16) = true := by decide
theorem test_decode_srm : decodesTo [0b0011000000000011#16, 0b0000111111111111#16] (.srm .ac 4095#16) = true := by decide
theorem test_decode_mvr : decodesTo [0b0100010100000100#16] (.mvr .gp1 .gp2) = true := by decide
theorem test_decode_add : decodesTo [0b0100010100000101#16] (.add .gp1 .gp2) = true := by decide
theorem test_decode_sub : decodesTo [0b0001001000000110#16] (.sub .sp .bp) = true := by decide
theorem test_decode_mul : decodesTo [0b0110011100000111#16] (.mul .gp3 .gp4) = true := by decide
theorem test_decode_div : decodesTo [0b0111010000001000#16] (.div .gp4 .gp1) = true := by decide
theorem test_decode_cmp : decodesTo [0b0100010000001001#16] (.cmp .gp1 .gp1) = true := by decide
theorem test_decode_jmp : decodesTo [0b0000000000001010#16, 0b0001000000000000#16] (.jmp 4096#16) = true := by decide
theorem test_decode_je : decodesTo [0b0000000000001011#16, 0b0000000000001000#16] (.je 8#16) = true := by decide
theorem test_decode_jne : decodesTo [0b0000000000001100#16, 0b0000000000001000#16] (.jne 8#16) = true := by decide
theorem test_decode_sys : decodesTo [0b0000000000001101#16] .sys = true := by decide
theorem test_decode_hlt : decodesTo [0b0000000000001110#16] .hlt = true := by decide

/-- 95_test_vectors.md 2.1 and V5: the rejected words, the opcode checked before the operands. -/
theorem test_decode_rejections :
    rejectedWith [0x0405#16] (.illegalOperand 0x0405#16) = true ∧
      rejectedWith [0x8405#16] (.illegalOperand 0x8405#16) = true ∧
      rejectedWith [0x4F09#16] (.illegalOperand 0x4F09#16) = true ∧
      rejectedWith [0x4102#16, 5#16] (.illegalOperand 0x4102#16) = true ∧
      rejectedWith [0x010E#16] (.illegalOperand 0x010E#16) = true ∧
      rejectedWith [0x100A#16, 8#16] (.illegalOperand 0x100A#16) = true ∧
      rejectedWith [0xFF00#16] (.unknownOpcode 0x00#8) = true ∧
      rejectedWith [0x4510#16] (.unknownOpcode 0x10#8) = true := by decide

/-- R87: the bytes of an encoding in memory order. -/
theorem test_encode_bytes : encodeBytes (.srm .ac 0x0FFF#16) = [0x30#8, 0x03#8, 0x0F#8, 0xFF#8] ∧
    encodeBytes (.sub .sp .bp) = [0x12#8, 0x06#8] := by decide

/-- The host's numbering: the first word in bits 15..0, the second in bits 31..16. -/
theorem test_decodeTableWord : decodeTableWord 32 0x00054002 = some (.lra .gp1 5#16) ∧
    decodeTableWord 16 0x000A = some (.jmp 0#16) ∧ decodeTableWord 16 0x4505 = some (.add .gp1 .gp2) := by decide

/-- `withFetchWord` places an instruction that the very next step from reset runs (log 10). -/
theorem test_withFetchWord_runs :
    yields (step (State.reset.withFetchWord 32 0x00054002)) (fun t => t.gp1 == 5#16 && t.ip == 2#16) = true := by decide

/-! ### The instructions (95_test_vectors.md 2.2 to 2.5) -/

theorem test_lrm_4095 :
    yields (exec (.lrm .gp1 4095#16) { State.reset with mem := [(8190, 0x12#8), (8191, 0x34#8)] })
      (fun t => t.gp1 == 0x1234#16 && t.ip == 2#16) = true := by decide

theorem test_lrm_4096_faults :
    yields (exec (.lrm .gp1 4096#16) { State.reset with gp1 := 0x7777#16 })
      (fun t => t.gp1 == 0x7777#16 && t.ip == 0#16 && decide (t.fault = some (.outOfBoundsAccess 4096#16))) = true := by
  decide

theorem test_lra_ffff :
    yields (exec (.lra .gp1 0xFFFF#16) State.reset) (fun t => t.gp1 == 0xFFFF#16 && t.ip == 2#16) = true := by decide

theorem test_srm_4095_big_endian :
    yields (exec (.srm .ac 4095#16) { State.reset with ac := 0xABCD#16 })
      (fun t => decide (t.mem = [(8190, 0xAB#8), (8191, 0xCD#8)]) && t.ip == 2#16) = true := by decide

theorem test_srm_over_its_own_operand_word :
    yields (step { (at_ 0#16 0x4003#16 1#16) with gp1 := 9#16 })
      (fun t => t.mem.wordAt 1 == 9#16 && t.mem.wordAt 0 == 0x4003#16 && t.ip == 2#16) = true := by decide

theorem test_mvr_order :
    yields (exec (.mvr .gp1 .gp2) { State.reset with gp1 := 42#16, ip := 5#16 })
      (fun t => t.gp2 == 42#16 && t.gp1 == 42#16 && t.ip == 6#16) = true := by decide

theorem test_add_wraps :
    yields (exec (.add .gp1 .gp2) { State.reset with gp1 := 0xFFFF#16, gp2 := 1#16 })
      (fun t => t.gp1 == 0#16 && t.gp2 == 1#16 && t.flags == 0#16 && t.ip == 1#16) = true := by decide

theorem test_add_same_register_doubles :
    yields (exec (.add .bp .bp) { State.reset with bp := 0x8000#16 }) (fun t => t.bp == 0#16) = true := by decide

theorem test_sub_wraps :
    yields (exec (.sub .gp1 .gp3) { State.reset with gp1 := 1#16, gp3 := 0xFFFF#16 })
      (fun t => t.gp1 == 2#16 && t.gp3 == 0xFFFF#16) = true := by decide

theorem test_sub_same_register :
    yields (exec (.sub .sp .sp) { State.reset with sp := 0x1234#16 }) (fun t => t.sp == 0#16) = true := by decide

theorem test_mul_keeps_the_low_half :
    yields (exec (.mul .gp1 .ac) { State.reset with gp1 := 0xFFFF#16, ac := 0xFFFF#16 })
      (fun t => t.gp1 == 1#16 && t.ac == 0xFFFF#16) = true := by decide

theorem test_mul_same_register :
    yields (exec (.mul .gp4 .gp4) { State.reset with gp4 := 0x0101#16 }) (fun t => t.gp4 == 0x0201#16) = true := by decide

theorem test_div_discards_the_remainder :
    yields (exec (.div .gp2 .gp3) { State.reset with gp2 := 42#16, gp3 := 5#16 })
      (fun t => t.gp2 == 8#16 && t.gp3 == 5#16 && t.ip == 1#16) = true := by decide

theorem test_div_same_register_zero_faults :
    yields (exec (.div .gp1 .gp1) { State.reset with ip := 2#16 })
      (fun t => t.ip == 2#16 && decide (t.fault = some (.divisionByZero 2#16))) = true := by decide

theorem test_cmp_sets_equal :
    yields (exec (.cmp .gp1 .gp2) { State.reset with gp1 := 3#16, gp2 := 3#16 }) (fun t => t.flags == 1#16) = true := by
  decide

theorem test_cmp_clears_equal :
    yields (exec (.cmp .gp1 .gp2) { State.reset with gp1 := 3#16, gp2 := 4#16, flags := 1#16 })
      (fun t => t.flags == 0#16 && t.gp1 == 3#16 && t.gp2 == 4#16) = true := by decide

theorem test_jmp_out_of_bounds_faults_at_the_next_fetch :
    yields (step (at_ 0#16 0x000A#16 0x1000#16)) (fun t => t.ip == 0x1000#16 && decide (t.fault = none) &&
      yields (step t) (fun u => u.ip == 0x1000#16 && decide (u.fault = some (.outOfBoundsAccess 0x1000#16)))) = true := by
  decide

theorem test_je_taken_and_not :
    yields (exec (.je 8#16) { State.reset with ip := 11#16, flags := 1#16 }) (fun t => t.ip == 8#16) = true ∧
      yields (exec (.je 8#16) { State.reset with ip := 11#16 }) (fun t => t.ip == 13#16) = true := by decide

theorem test_jne_taken_and_not :
    yields (exec (.jne 8#16) { State.reset with ip := 11#16 }) (fun t => t.ip == 8#16) = true ∧
      yields (exec (.jne 8#16) { State.reset with ip := 11#16, flags := 1#16 }) (fun t => t.ip == 13#16) = true := by decide

/-- 2.5: the hook returns ac = 0x0063 and M[0x0200] = 0x0041. -/
theorem test_sys_ok :
    yields (exec .sys (withHook [.ok ⟨0#16, 0#16, 0x0063#16, 0#16, 0#16, 0#16, 0#16⟩ [(0x400, 0x00#8), (0x401, 0x41#8)]]))
      (fun t => t.ac == 0x0063#16 && t.mem.wordAt 0x200 == 0x0041#16 && t.ip == 3#16 && t.flags == 0#16) = true := by decide

/-- 2.5: the hook fails with code 1. -/
theorem test_sys_fail :
    yields (exec .sys (withHook [.fail 1#16]))
      (fun t => decide (t = { withHook [.fail 1#16] with fault := some (.sysFault 1#16 2#16) })) = true := by decide

/-- V1: HLT from the load image 00 0E; ip stays, the second step changes nothing. -/
theorem test_hlt_scenario_a :
    yields (step (State.reset.loadProgram [0x00#8, 0x0E#8]).1) (fun t => t.flags == 2#16 && t.ip == 0#16 &&
      decide (t.result = .halted) && decide (t.mem = [(1, 0x0E#8)]) && yields (step t) (fun u => decide (u = t))) = true := by
  decide

/-- R133, P6: a zero word faults with UnknownOpcode. -/
theorem test_reset_memory_faults :
    yields (step State.reset) (fun t => decide (t = { State.reset with fault := some (.unknownOpcode 0x00#8 0#16) })) =
      true := by decide

/-- 2.6: which of two conditions is reported at 4095. -/
theorem test_priority_at_4095 :
    yields (step (at_ 4095#16 0x0400#16 0#16)) (fun t => decide (t.fault = some (.unknownOpcode 0x00#8 4095#16))) = true ∧
      yields (step (at_ 4095#16 0x0001#16 0#16))
        (fun t => decide (t.fault = some (.illegalOperand 0x0001#16 4095#16))) = true ∧
      yields (step (at_ 4095#16 0x4001#16 0#16))
        (fun t => decide (t.fault = some (.outOfBoundsAccess 4096#16))) = true ∧
      yields (step (at_ 4095#16 0x4505#16 0#16)) (fun t => t.ip == 4096#16 && decide (t.fault = none)) = true := by decide

/-- V4: one byte too many fails whole. -/
theorem test_load_too_large : State.reset.loadProgram (List.replicate 8193 1#8) = (State.reset, .programTooLarge 8193 8192) := by
  unfold State.loadProgram
  rw [List.length_replicate]
  rfl

/-- R11, R126. -/
theorem test_start : yields (start 1) (fun t => decide (t = State.reset)) = true ∧ yields (start 2) (fun _ => true) = false := by
  decide

/-- Program P2 of 95_test_vectors.md section 3: its source with a label for its loop assembles to its 32-byte image. -/
theorem test_assemble_p2 :
    (assemble [.instr (.lra .gp1 3#16), .instr (.lra .gp2 0#16), .instr (.lra .gp3 1#16), .instr (.lra .gp4 0#16),
      .label ['l'], .instr (.add .gp2 .gp1), .instr (.sub .gp1 .gp3), .instr (.cmp .gp1 .gp4),
      .instrAt (.jne 0#16) ['l'], .instr (.srm .gp2 0x0100#16), .instr .hlt]).map wordsToBytes =
    some [0x40#8, 0x02#8, 0x00#8, 0x03#8, 0x50#8, 0x02#8, 0x00#8, 0x00#8, 0x60#8, 0x02#8, 0x00#8, 0x01#8, 0x70#8, 0x02#8,
      0x00#8, 0x00#8, 0x54#8, 0x05#8, 0x46#8, 0x06#8, 0x47#8, 0x09#8, 0x00#8, 0x0C#8, 0x00#8, 0x08#8, 0x50#8, 0x03#8,
      0x01#8, 0x00#8, 0x00#8, 0x0E#8] := by decide

/-- R85: lines of text, the words of R87's table; a label on a line of its own and before an instruction; a comment. -/
theorem test_assemble_text :
    assembleText ['J', 'N', 'E', ' ', 'x', ' ', ';', 'z', '\n', 'x', ':', ' ', 'S', 'R', 'M', ' ', 'a', 'c', ',', ' ', '0',
        'x', '0', 'F', 'f', 'F', '\n', '.', 'w', 'o', 'r', 'd', ' ', '1', '4'] =
      some [0x000C#16, 0x0002#16, 0x3003#16, 0x0FFF#16, 0x000E#16] := by decide

/-- R85: `ip` is no operand, a number is at most 65535, and a label has to be defined. -/
theorem test_assemble_text_refuses :
    asmLine ['M', 'V', 'R', ' ', 'i', 'p', ',', ' ', 's', 'p'] = none ∧
      asmLine ['J', 'M', 'P', ' ', '6', '5', '5', '3', '6'] = none ∧
      asmLine ['J', 'M', 'P', ' ', '6', '5', '5', '3', '5'] = some [.instr (.jmp 0xFFFF#16)] ∧
      assembleText ['J', 'M', 'P', ' ', 'x'] = none := by decide

/-! ### Witnesses: a state and operands that meet the hypotheses of a statement together, each clause's own -/

theorem test_witness_EncodeInvertsDecode :
    (match decodeBytes [0x40#8, 0x02#8, 0x00#8, 0x05#8, 0xFF#8] with
      | .ok (i, rest) => decide (i = .lra .gp1 5#16) && decide (rest = [0xFF#8])
      | .error _ => false) = true := by decide

theorem test_witness_StepRunsTheDecodedInstruction :
    let s := at_ 4095#16 0x4505#16 0#16
    s.status = .running ∧ s.ip.toNat + Instr.words (.add .gp1 .gp2) ≤ 4096 ∧
      (match decodeBytes [s.mem.readByte 8190, s.mem.readByte 8191, s.mem.readByte 8192, s.mem.readByte 8193] with
        | .ok (i, _) => decide (i = .add .gp1 .gp2)
        | .error _ => false) = true := by decide

theorem test_witness_StepReportsTheFirstCondition :
    ({ State.reset with fault := some (.divisionByZero 0#16) } : State).fault ≠ none ∧
      (({ State.reset with flags := 2#16 } : State).fault = none ∧
        ({ State.reset with flags := 2#16 } : State).flags.getLsbD 1 = true) ∧
      (({ State.reset with ip := 4096#16 } : State).status = .running ∧ 4096 ≤ (4096#16).toNat) ∧
      ((at_ 4095#16 0x0400#16 0#16).RunningAt (0#4 ++ 4#4 ++ 0x00#8) ∧ (Fields.mk 0#4 4#4 0x00#8).opcodeKnown = false) ∧
      ((at_ 4095#16 0x0001#16 0#16).RunningAt (0#4 ++ 0#4 ++ 0x01#8) ∧ (Fields.mk 0#4 0#4 0x01#8).opcodeKnown = true ∧
        (Fields.mk 0#4 0#4 0x01#8).wellFormed = false) ∧
      ((at_ 4095#16 0x4001#16 0#16).RunningAt (4#4 ++ 0#4 ++ 0x01#8) ∧ (Fields.mk 4#4 0#4 0x01#8).wellFormed = true ∧
        (Fields.mk 4#4 0#4 0x01#8).format.map Format.words = some 2 ∧ (at_ 4095#16 0x4001#16 0#16).ip = 4095#16) ∧
      ((at_ 4095#16 0x4505#16 0#16).RunningAt (4#4 ++ 5#4 ++ 0x05#8) ∧ (Fields.mk 4#4 5#4 0x05#8).wellFormed = true ∧
        (Fields.mk 4#4 5#4 0x05#8).format.map Format.words = some 1) ∧
      ((at_ 4094#16 0x4001#16 0#16).RunningAt (4#4 ++ 0#4 ++ 0x01#8) ∧ (4094#16).toNat < 4095) := by decide

theorem test_witness_UnknownOpcodeIsFatal :
    ((at_ 0#16 0x4500#16 0#16).RunningAt (4#4 ++ 5#4 ++ 0x00#8) ∧ ¬(0x01 ≤ (0x00#8).toNat ∧ (0x00#8).toNat ≤ 0x0E)) ∧
      ((at_ 0#16 0x450F#16 0#16).RunningAt (4#4 ++ 5#4 ++ 0x0F#8) ∧ ¬(0x01 ≤ (0x0F#8).toNat ∧ (0x0F#8).toNat ≤ 0x0E)) ∧
      ((at_ 0#16 0x000E#16 0#16).RunningAt (0#4 ++ 0#4 ++ 0x0E#8) ∧ 0x01 ≤ (0x0E#8).toNat ∧ (0x0E#8).toNat ≤ 0x0E) ∧
      yields (step (at_ 0#16 0x000E#16 0#16)) (fun _ => true) = true := by decide

theorem test_witness_FaultEntryIsPrecise :
    State.reset.fault = none ∧ yields (step State.reset) (fun t => t.fault.isSome) = true := by decide

theorem test_witness_FaultedCpuIsInert :
    ({ State.reset with fault := some (.sysFault 1#16 0#16) } : State).fault = some (.sysFault 1#16 0#16) := by decide

theorem test_witness_HaltedCpuIsInert :
    ({ State.reset with flags := 3#16 } : State).fault = none ∧
      ({ State.reset with flags := 3#16 } : State).flags.getLsbD 1 = true := by decide

theorem test_witness_HaltIsSignalled :
    (at_ 4095#16 0x000E#16 0#16).status = .running ∧
      (match (at_ 4095#16 0x000E#16 0#16).fetch with
        | .ok i => decide (i = .hlt)
        | .error _ => false) = true := by decide

theorem test_witness_OnlyHltOrFaultStopsTheCpu :
    (at_ 0#16 0x000E#16 0#16).status = .running ∧
      yields (step (at_ 0#16 0x000E#16 0#16)) (fun t => decide (t.status ≠ .running)) = true ∧
      yields (step State.reset) (fun t => decide (t.status ≠ .running)) = true := by decide

/-- One state for each of the mux's three cases; a jump taken, a sequential step at the top of memory. -/
theorem test_witness_ProgramCounterMux :
    yields (step { State.reset with flags := 2#16 }) (fun t => t.ip == 0#16) = true ∧
      (State.reset.status = .running ∧ yields (step State.reset) (fun t => t.fault.isSome && t.ip == 0#16) = true) ∧
      yields (step (at_ 4095#16 0x4505#16 0#16)) (fun t => decide (t.fault = none) && t.ip == 4096#16) = true ∧
      yields (step (at_ 0#16 0x000C#16 0xFFFF#16)) (fun t => decide (t.fault = none) && t.ip == 0xFFFF#16) = true := by decide

theorem test_witness_InstructionsExecuteInsideMemory :
    (at_ 4094#16 0x4002#16 7#16).status = .running ∧
      yields (step (at_ 4094#16 0x4002#16 7#16)) (fun t => decide (t.fault = none) && t.ip == 4096#16) = true := by decide

/-- A state with memory, EQUAL set and a store to make, whose next state is another. -/
theorem test_witness_StepKeepsInvariant :
    ({ (at_ 0#16 0x4003#16 0x0FFF#16) with gp1 := 0x00FF#16, flags := 1#16 } : State).Inv ∧
      yields (step { (at_ 0#16 0x4003#16 0x0FFF#16) with gp1 := 0x00FF#16, flags := 1#16 })
        (fun t => t.mem.wordAt 4095 == 0x00FF#16 && decide t.Inv) = true := by decide

theorem test_witness_OnlyCmpAndHltWriteFlags :
    yields (exec (.cmp .gp1 .gp1) State.reset) (fun t => t.flags == 1#16) = true ∧
      yields (exec .hlt { State.reset with flags := 1#16 }) (fun t => t.flags == 3#16) = true ∧
      yields (exec (.add .gp1 .gp2) { State.reset with gp1 := 0xFFFF#16, gp2 := 1#16, flags := 1#16 })
        (fun t => t.flags == 1#16) = true := by decide

theorem test_witness_OnlyTheDestinationRegisterChanges :
    Instr.add .gp1 .gp2 ≠ .sys ∧ destination (.add .gp1 .gp2) ≠ some Reg.ac ∧
      yields (exec (.add .gp1 .gp2) { State.reset with ac := 9#16, gp2 := 1#16 })
        (fun t => t.reg .ac == 9#16 && t.reg .gp1 == 1#16) = true := by decide

theorem test_witness_OtherInstructionsDoNotReachMemory :
    (∀ d a, Instr.jmp 4#16 ≠ .lrm d a) ∧ (∀ r a, Instr.jmp 4#16 ≠ .srm r a) ∧ Instr.jmp 4#16 ≠ .sys := by simp

theorem test_witness_ExecutionFaultsByInstruction :
    (State.reset.fault = none ∧ yields (exec (.lrm .gp1 4096#16) State.reset) (fun t => t.fault.isSome) = true) ∧
      yields (exec (.srm .gp1 0xFFFF#16) State.reset) (fun t => t.fault.isSome) = true ∧
      yields (exec (.div .gp1 .gp2) State.reset) (fun t => t.fault.isSome) = true ∧
      ((withHook [.fail 0#16]).fault = none ∧
        yields (exec .sys (withHook [.fail 0#16])) (fun t => t.fault.isSome) = true) := by decide

theorem test_witness_FaultInvisibleToTheProgram :
    ({ State.reset with fault := some (.sysFault 1#16 0#16) } : State).fault = some (.sysFault 1#16 0#16) ∧
      yields (step State.reset) (fun t => decide (t.fault = some (.unknownOpcode 0x00#8 0#16))) = true := by decide

theorem test_witness_MemoryPort : (4095#16).toNat < 4096 ∧ 4096 ≤ (4096#16).toNat ∧ 4096 ≤ (0xFFFF#16).toNat := by decide

theorem test_witness_ReadAfterWrite :
    (match State.reset.memWrite 4095#16 0xABCD#16 with
      | .ok t => decide (t.mem = [(8190, 0xAB#8), (8191, 0xCD#8)])
      | .error _ => false) = true := by decide

theorem test_witness_SrmStoresToMemory_step :
    (at_ 0#16 0x4003#16 4095#16).status = .running ∧ (4095#16).toNat < 4096 ∧
      (match (at_ 0#16 0x4003#16 4095#16).fetch with
        | .ok i => decide (i = .srm .gp1 4095#16)
        | .error _ => false) = true := by decide

theorem test_witness_Load :
    [0x00#8, 0x0E#8, 0x40#8].length ≤ 8192 ∧ [0x00#8, 0x0E#8, 0x40#8][1]? = some 0x0E#8 ∧
      8192 < (List.replicate 8193 (0#8)).length ∧ (List.replicate 8192 (0#8)).length ≤ 8192 := by
  rw [List.length_replicate, List.length_replicate]
  decide

theorem test_witness_TerminalOutcomeIsFinal :
    runLoop 1 (at_ 0#16 0x000E#16 0#16) = .halted { (at_ 0#16 0x000E#16 0#16) with flags := 2#16 } ∧
      runLoop 1 State.reset =
        .faulted (.unknownOpcode 0x00#8 0#16) { State.reset with fault := some (.unknownOpcode 0x00#8 0#16) } ∧
      (State.reset.status = .running ∧ runLoop 0 State.reset = .noResultYet State.reset) := by decide

theorem test_witness_OtherCpuCountsAreRefused : (0 : Nat) ≠ 1 ∧ (2 : Nat) ≠ 1 := by decide

/-- The boundary addresses of LRM and SRM. -/
theorem test_witness_LrmLoadsFromMemory_SrmStoresToMemory :
    ((4095#16).toNat < 4096 ∧ (0#16).toNat < 4096) ∧ (4096 ≤ (4096#16).toNat ∧ 4096 ≤ (0xFFFF#16).toNat) := by decide

/-- PreFaultsRW at its boundaries: selectors 0 and 8, a reserved bit, and a legal word at 4095 with selectors 1 and 7. -/
theorem test_witness_PreFaultsRW :
    (at_ 0#16 0x0001#16 0#16).RunningAt (0#4 ++ 0#4 ++ 0x01#8) ∧ (at_ 0#16 0x8002#16 0#16).RunningAt (8#4 ++ 0#4 ++ 0x02#8) ∧
      (at_ 0#16 0x4103#16 0#16).RunningAt (4#4 ++ 1#4 ++ 0x03#8) ∧
      ((at_ 4095#16 0x1001#16 0#16).RunningAt (1#4 ++ 0#4 ++ 0x01#8) ∧ (at_ 4095#16 0x1001#16 0#16).ip = 4095#16) ∧
      (at_ 4095#16 0x7002#16 0#16).RunningAt (7#4 ++ 0#4 ++ 0x02#8) ∧
      (at_ 4095#16 0x1003#16 0#16).RunningAt (1#4 ++ 0#4 ++ 0x03#8) := by decide

/-- PreFaultsRR at its boundaries, one for each of the six opcodes. -/
theorem test_witness_PreFaultsRR :
    (at_ 0#16 0x0404#16 0#16).RunningAt (0#4 ++ 4#4 ++ 0x04#8) ∧ (at_ 0#16 0x8405#16 0#16).RunningAt (8#4 ++ 4#4 ++ 0x05#8) ∧
      (at_ 0#16 0x4006#16 0#16).RunningAt (4#4 ++ 0#4 ++ 0x06#8) ∧ (at_ 0#16 0x4807#16 0#16).RunningAt (4#4 ++ 8#4 ++ 0x07#8) ∧
      (at_ 0#16 0xFF08#16 0#16).RunningAt (15#4 ++ 15#4 ++ 0x08#8) ∧
      (at_ 0#16 0x4F09#16 0#16).RunningAt (4#4 ++ 15#4 ++ 0x09#8) := by decide

/-- PreFaultsW and PreFaultsN at their boundaries. -/
theorem test_witness_PreFaultsW_PreFaultsN :
    (at_ 0#16 0x100A#16 0#16).RunningAt (1#4 ++ 0#4 ++ 0x0A#8) ∧ (at_ 4095#16 0x000A#16 0#16).RunningAt (0#4 ++ 0#4 ++ 0x0A#8) ∧
      (at_ 0#16 0x010B#16 0#16).RunningAt (0#4 ++ 1#4 ++ 0x0B#8) ∧ (at_ 4095#16 0x000B#16 0#16).RunningAt (0#4 ++ 0#4 ++ 0x0B#8) ∧
      (at_ 0#16 0xFF0C#16 0#16).RunningAt (15#4 ++ 15#4 ++ 0x0C#8) ∧
      (at_ 4095#16 0x000C#16 0#16).RunningAt (0#4 ++ 0#4 ++ 0x0C#8) ∧
      (at_ 0#16 0x010D#16 0#16).RunningAt (0#4 ++ 1#4 ++ 0x0D#8) ∧ (at_ 0#16 0x010E#16 0#16).RunningAt (0#4 ++ 1#4 ++ 0x0E#8) := by
  decide

/-- The two clauses of DivTruncates and DivByZeroIsFatal where they meet: divisor 1 and divisor 0. -/
theorem test_witness_DivTruncates_DivByZeroIsFatal :
    ({ State.reset with gp2 := 1#16 } : State).reg .gp2 ≠ 0#16 ∧ State.reset.reg .gp2 = 0#16 := by decide

/-- A running state that a taken jump leaves at the boundary 4096 (NextFetchFaults). -/
theorem test_witness_JmpSetsIp_JeJumpsIfEqual_JneJumpsIfNotEqual :
    yields (exec (.jmp 4096#16) State.reset) (fun t => decide (t.status = .running) && decide (4096 ≤ t.ip.toNat)) = true ∧
      ({ State.reset with flags := 1#16 } : State).flags.getLsbD 0 = true ∧ State.reset.flags.getLsbD 0 = false ∧
      yields (exec (.je 4096#16) { State.reset with flags := 1#16 })
        (fun t => decide (t.status = .running) && decide (4096 ≤ t.ip.toNat)) = true ∧
      yields (exec (.jne 0xFFFF#16) State.reset)
        (fun t => decide (t.status = .running) && decide (4096 ≤ t.ip.toNat)) = true := by decide

theorem test_witness_SysCommitsTheHooksOk_SysFailsOrBlocks_SysRequestIsAnswered :
    (withHook [.ok ⟨1#16, 2#16, 3#16, 4#16, 5#16, 6#16, 7#16⟩ [(8191, 1#8)]]).hookOutcome =
        .ok ⟨1#16, 2#16, 3#16, 4#16, 5#16, 6#16, 7#16⟩ [(8191, 1#8)] ∧
      (withHook [.fail 1#16]).hookOutcome = .fail 1#16 ∧ (withHook [.never]).hookOutcome = .never ∧
      (withHook [.never]).hookScript = [.never] ∧ State.reset.hookScript = [] := by decide

end Sys2Proof.Tests
end

section
/-! PROOF. The memory family (20_memory.md): the memory port inside the array and outside it (R50, R51), and the two
answers of `load` (R56, R57). -/

namespace Sys2Proof.Machine

/-- The two bytes of a word written at word address a, each read back at its own byte offset (R48, R51). -/
theorem readByte_writeWord_hi (m : Memory) (a : Nat) (v : Word) :
    (m.writeWord a v).readByte (2 * a) = v.extractLsb 15 8 := by
  rw [readByte_writeWord, if_pos rfl]
  rfl

theorem readByte_writeWord_lo (m : Memory) (a : Nat) (v : Word) :
    (m.writeWord a v).readByte (2 * a + 1) = v.extractLsb 7 0 := by
  rw [readByte_writeWord, if_neg (by omega), if_pos rfl]
  rfl

/-- The frame of a word write: every byte outside the word. -/
theorem sameMemoryOutsideWord_writeWord (s : State) (a : Nat) (v : Word) :
    SameMemoryOutsideWord a s { s with mem := s.mem.writeWord a v } := by
  intro k hhi hlo
  rw [readByte_writeWord, if_neg hhi, if_neg hlo]

/-- Settles O23: the port's lemma for each side of the bound 4096, and for a write inside memory the three facts about
the word written (its high byte, its low byte, its frame). -/
theorem memoryPort : Obligations.MemoryPort := by
  refine ⟨fun s a ha => ?_, fun s a ha => memRead_of_ge ha, fun s a v ha => ?_, fun s a v ha => memWrite_of_ge ha⟩
  · rw [memRead_of_lt ha]
    rfl
  · exact ⟨{ s with mem := s.mem.writeWord a.toNat v }, memWrite_of_lt ha, readByte_writeWord_hi _ _ _,
      readByte_writeWord_lo _ _ _, sameMemoryOutsideWord_writeWord s _ v, rfl⟩

/-- A sequence longer than the array: the whole state comes back as it was (R57, R114). -/
theorem loadProgram_of_gt {s : State} {bytes : List Byte} (h : 8192 < bytes.length) :
    s.loadProgram bytes = (s, .programTooLarge bytes.length 8192) :=
  if_pos h

/-- A sequence that fits: placed from byte offset 0 on, and its length answered (R56). -/
theorem loadProgram_of_le {s : State} {bytes : List Byte} (h : bytes.length ≤ 8192) :
    s.loadProgram bytes = ({ s with mem := s.mem.writeBytes 0 bytes }, .loaded bytes.length) :=
  if_neg (Nat.not_lt.mpr h)

/-- Settles O26: the two answers of `load`, on the two sides of 8192 bytes; the second is no ProgramTooLarge. -/
theorem loadFailureIsAtomic : Obligations.LoadFailureIsAtomic := by
  intro s bytes
  refine ⟨loadProgram_of_gt, fun h r c => ?_⟩
  rw [loadProgram_of_le h]
  exact LoadResult.noConfusion

end Sys2Proof.Machine
end

section
/-! PROOF. The program counter mux (R83): the next ip of each instruction, of a faulting step and of a step that
executes none. -/

namespace Sys2Proof.Machine

/-- What the program counter mux selects for an instruction that does not fault (R83). -/
def State.nextIp (s : State) (i : Instr) : Word :=
  match i with
  | .lrm _ _ | .lra _ _ | .srm _ _ => wrap16 (s.ip.toNat + 2)
  | .mvr _ _ | .add _ _ | .sub _ _ | .mul _ _ | .div _ _ | .cmp _ _ | .sys => wrap16 (s.ip.toNat + 1)
  | .jmp addr => addr
  | .je addr => if s.equal = true then addr else wrap16 (s.ip.toNat + 2)
  | .jne addr => if s.equal = false then addr else wrap16 (s.ip.toNat + 2)
  | .hlt => s.ip

/-- An instruction either latches a fault and changes nothing else, or leaves the latch and goes where the mux says. -/
theorem exec_next_latch_or_nextIp {i : Instr} {s t : State} (h : exec i s = .next t) :
    (∃ f, t = s.latch f) ∨ (t.fault = s.fault ∧ t.ip = s.nextIp i) := by
  have hc := exec_next_cases h
  cases i with
  | lrm | srm =>
    obtain ⟨-, rfl⟩ | ⟨-, rfl⟩ := hc
    · exact .inr (by simp [State.nextIp])
    · exact .inl ⟨_, rfl⟩
  | div =>
    obtain ⟨-, rfl⟩ | ⟨-, rfl⟩ := hc
    · exact .inl ⟨_, rfl⟩
    · exact .inr (by simp [State.nextIp])
  | sys =>
    obtain ⟨r, c, -, rfl⟩ | ⟨code, -, rfl⟩ := hc
    · exact .inr (by simp [State.nextIp])
    · exact .inl ⟨_, rfl⟩
  | je | jne =>
    simp only at hc
    subst hc
    exact .inr (by cases he : s.equal <;> simp [State.nextIp, he])
  | lra | mvr | add | sub | mul | cmp | jmp | hlt =>
    simp only at hc
    subst hc
    exact .inr (by simp [State.nextIp])

/-- A step of a running CPU either latches a fault and changes nothing else, or executes the instruction fetched, with
the latch still clear and ip where the mux says. -/
theorem step_latch_or_nextIp {s t : State} (hs : s.status = .running) (h : step s = .next t) :
    (∃ f, t = s.latch f) ∨ (t.fault = none ∧ ∃ i, s.fetch = .ok i ∧ t.ip = s.nextIp i) := by
  obtain ⟨hn, -⟩ | ⟨-, f, -, ht⟩ | ⟨-, i, hi, he⟩ := step_next_cases h
  · exact absurd hs hn
  · exact .inl ⟨f, ht⟩
  · obtain hl | ⟨hf, hip⟩ := exec_next_latch_or_nextIp he
    · exact .inl hl
    · exact .inr ⟨hf.trans ((status_running_iff s).mp hs).1, i, hi, hip⟩

/-- Settles O13: a CPU that does not run answers the same state, a faulting step writes the latch alone, and any other
step goes where the mux says for the instruction fetched. -/
theorem programCounterMux : Obligations.ProgramCounterMux := by
  intro s t h
  refine ⟨fun hs => ?_, fun hs hf => ?_, fun hs hf => ?_⟩
  · rw [step_of_not_running hs] at h
    cases h
    rfl
  · obtain ⟨f, rfl⟩ | ⟨hnone, -⟩ := step_latch_or_nextIp hs h
    · rfl
    · exact absurd hnone hf
  · obtain ⟨f, rfl⟩ | ⟨-, hi⟩ := step_latch_or_nextIp hs h
    · cases hf
    · exact hi

end Sys2Proof.Machine
end

section
/-! PROOF. The data transfer family (40_data_transfer.md): LRM, LRA and SRM (R88 to R90). First what every opcode shares,
whatever its format: the decoding of a word given by its fields, and the two faults before execution (R78, R79). -/

namespace Sys2Proof.Machine

/-- A first word whose opcode is known decodes to what its operand checks answer. -/
theorem decodeHead_of_operands_some {op : Opcode} {ra rb : Nibble} {h : Head} (hop : decodeOperands op ra rb = some h) :
    decodeHead (ra ++ rb ++ op.byte) = .ok h := by
  have hd := decodeHead_word ⟨ra, rb, op.byte⟩
  simp only [ofByte_byte, hop] at hd
  exact hd

theorem decodeHead_of_operands_none {op : Opcode} {ra rb : Nibble} (hop : decodeOperands op ra rb = none) :
    decodeHead (ra ++ rb ++ op.byte) = .error (.illegalOperand (ra ++ rb ++ op.byte)) := by
  have hd := decodeHead_word ⟨ra, rb, op.byte⟩
  simp only [ofByte_byte, hop] at hd
  exact hd

theorem decodeWords_of_two_words {op : Opcode} {ra rb : Nibble} {h : Head} (hop : decodeOperands op ra rb = some h)
    (hw : h.words = 2) (w1 : Word) (rest : List Word) :
    decodeWords ((ra ++ rb ++ op.byte) :: w1 :: rest) = .ok (h.complete w1, rest) := by
  simp [decodeWords, decodeHead_of_operands_some hop, hw]

/-- A word that fails its operand checks faults before anything else of the step (R71, R72, R79). -/
theorem step_of_operands_none {s : State} {op : Opcode} {ra rb : Nibble} (hs : s.RunningAt (ra ++ rb ++ op.byte))
    (hop : decodeOperands op ra rb = none) :
    step s = .next { s with fault := some (.illegalOperand (ra ++ rb ++ op.byte) s.ip) } := by
  obtain ⟨hrun, hip, hword⟩ := hs
  have hd := decodeHead_of_operands_none hop
  rw [← hword] at hd ⊢
  exact step_of_fetch_error hrun (fetch_of_decode_error hip hd)

/-- A two-word instruction at the last word of memory: its operand word is out of bounds (R79). -/
theorem step_of_two_words_at_4095 {s : State} {op : Opcode} {ra rb : Nibble} {h : Head}
    (hs : s.RunningAt (ra ++ rb ++ op.byte)) (hop : decodeOperands op ra rb = some h) (hw : h.words = 2)
    (h4095 : s.ip = 4095#16) : step s = .next { s with fault := some (.outOfBoundsAccess 4096#16) } := by
  obtain ⟨hrun, hip, hword⟩ := hs
  have hd := decodeHead_of_operands_some hop
  rw [← hword] at hd
  exact step_of_fetch_error hrun ((fetch_of_decode_ok hip hd).trans (fetchOperand_beyond hw h4095))

/-! ### Format RW: the three opcodes of this family -/

theorem headRW_selector (mk : Reg → Head) (r : Reg) : headRW mk r.selector 0#4 = some (mk r) := by
  simp [headRW]

/-- The pre-execution faults of any opcode whose operand checks are format RW's and whose instruction has two words. -/
theorem preFaultsRW_of_headRW {op : Opcode} {mk : Reg → Head}
    (hop : ∀ ra rb, decodeOperands op ra rb = headRW mk ra rb) (hw : ∀ r, (mk r).words = 2) : PreFaultsRW op.byte := by
  refine fun s ra rb hs => ⟨fun hbad => ?_, fun hlo hhi hrb h4095 => ?_⟩
  · exact step_of_operands_none hs ((hop ra rb).trans ((headRW_eq_none_iff mk ra rb).mpr hbad))
  · cases hh : headRW mk ra rb with
    | none => simp [headRW_eq_none_iff, hlo, hhi, hrb] at hh
    | some h =>
      obtain ⟨r, -, -, rfl⟩ := headRW_eq_some hh
      exact step_of_two_words_at_4095 hs ((hop ra rb).trans hh) (hw r) h4095

/-! ### The effects -/

/-- What a write to register d and a sequential ip do, and everything they leave as it was. -/
theorem setReg_advance_effect {s t : State} {d : Reg} {v : Word} {n : Nat} (ht : t = (s.setReg d v).advance n) :
    t.reg d = v ∧ t.ip.toNat = (s.ip.toNat + n) % 65536 ∧ SameRegsExcept d s t ∧ t.flags = s.flags ∧ SameMemory s t ∧
      SameLatch s t ∧ SameHook s t := by
  subst ht
  exact ⟨by simp, by simp, fun r hr => by simp [setReg_reg_other _ _ _ _ hr], by simp, fun k => by simp,
    ⟨by simp, by simp⟩, ⟨by simp, by simp⟩⟩

theorem exec_lrm_of_lt {d : Reg} {addr : Word} {s : State} (h : addr.toNat < 4096) :
    exec (.lrm d addr) s = .next ((s.setReg d (s.mem.wordAt addr.toNat)).advance 2) := by
  simp [exec, execLrm, memRead_of_lt h, Except.map]

theorem exec_lrm_of_ge {d : Reg} {addr : Word} {s : State} (h : 4096 ≤ addr.toNat) :
    exec (.lrm d addr) s = .next (s.latch (.outOfBoundsAccess addr)) := by
  simp [exec, execLrm, memRead_of_ge h, Except.map]

theorem exec_srm_of_lt {src : Reg} {addr : Word} {s : State} (h : addr.toNat < 4096) :
    exec (.srm src addr) s = .next (({ s with mem := s.mem.writeWord addr.toNat (s.reg src) } : State).advance 2) := by
  simp [exec, execSrm, memWrite_of_lt h, Except.map]

theorem exec_srm_of_ge {src : Reg} {addr : Word} {s : State} (h : 4096 ≤ addr.toNat) :
    exec (.srm src addr) s = .next (s.latch (.outOfBoundsAccess addr)) := by
  simp [exec, execSrm, memWrite_of_ge h, Except.map]

/-- The status is a function of the latch and the flags (R40). -/
theorem status_congr {s t : State} (hfault : t.fault = s.fault) (hflags : t.flags = s.flags) : t.status = s.status := by
  simp [State.status, State.halted, hfault, hflags]

/-- The next fetch at the word just stored reads the stored value (R59, R90). -/
theorem runningAt_stored_word {s : State} {a v : Word} (hs : s.status = .running) (ha : a.toNat < 4096) (n : Nat) :
    ({ ({ s with mem := s.mem.writeWord a.toNat v } : State).advance n with ip := a } : State).RunningAt v :=
  ⟨(status_congr rfl rfl).trans hs, ha, (wordAt_writeWord s.mem a.toNat a.toNat v).trans (if_pos rfl)⟩

/-- Settles O30: the words by format RW, the load by the memory read on each side of 4096. -/
theorem lrmLoadsFromMemory : Obligations.LrmLoadsFromMemory := by
  refine ⟨fun d addr rest => ?_, fun d addr s h => ?_, fun d addr s h => exec_lrm_of_ge h, ?_⟩
  · exact decodeWords_of_two_words (op := .lrm) (headRW_selector .lrm d) rfl addr rest
  · exact ⟨_, exec_lrm_of_lt h, setReg_advance_effect rfl⟩
  · exact preFaultsRW_of_headRW (op := .lrm) (fun _ _ => rfl) (fun _ => rfl)

/-- Settles O31: the words by format RW, the load by the register write alone. -/
theorem lraLoadsTheImmediate : Obligations.LraLoadsTheImmediate := by
  refine ⟨fun d imm rest => ?_, fun d imm s => ⟨_, rfl, setReg_advance_effect rfl⟩, ?_⟩
  · exact decodeWords_of_two_words (op := .lra) (headRW_selector .lra d) rfl imm rest
  · exact preFaultsRW_of_headRW (op := .lra) (fun _ _ => rfl) (fun _ => rfl)

/-- Settles O32: the words by format RW, the store by the word write on each side of 4096; the SRM executed is the one
that was fetched, and the stored word is what the next fetch there reads. -/
theorem srmStoresToMemory : Obligations.SrmStoresToMemory := by
  refine ⟨fun src addr rest => ?_, fun src addr s h => ?_, fun src addr s h => exec_srm_of_ge h,
    fun src addr s hs hf h => ?_, ?_⟩
  · exact decodeWords_of_two_words (op := .srm) (headRW_selector .srm src) rfl addr rest
  · exact ⟨_, exec_srm_of_lt h, readByte_writeWord_hi _ _ _, readByte_writeWord_lo _ _ _,
      sameMemoryOutsideWord_writeWord s _ _, wrap16_toNat _, fun r => by simp, rfl, ⟨rfl, rfl⟩, ⟨rfl, rfl⟩⟩
  · have he := exec_srm_of_lt (src := src) (s := s) h
    exact ⟨_, (step_of_fetch_ok hs hf).trans he, he, runningAt_stored_word hs h 2⟩
  · exact preFaultsRW_of_headRW (op := .srm) (fun _ _ => rfl) (fun _ => rfl)

end Sys2Proof.Machine
end

section
/-! PROOF. The arithmetic family (41_arithmetic.md): CMP (R96). First what every format RR opcode shares: the decoding of
its one word, and its only fault before execution (R69, R78, R79). -/

namespace Sys2Proof.Machine

theorem decodeWords_of_one_word {op : Opcode} {ra rb : Nibble} {h : Head} (hop : decodeOperands op ra rb = some h)
    (hw : h.words = 1) (rest : List Word) :
    decodeWords ((ra ++ rb ++ op.byte) :: rest) = .ok (h.complete 0#16, rest) := by
  simp [decodeWords, decodeHead_of_operands_some hop, hw]

/-! ### Format RR -/

theorem headRR_selector (mk : Reg → Reg → Instr) (a b : Reg) :
    headRR mk a.selector b.selector = some (.whole (mk a b)) := by
  simp [headRR]

/-- The pre-execution fault of any opcode whose operand checks are format RR's. -/
theorem preFaultsRR_of_headRR {op : Opcode} {mk : Reg → Reg → Instr}
    (hop : ∀ ra rb, decodeOperands op ra rb = headRR mk ra rb) : PreFaultsRR op.byte :=
  fun _ ra rb hs hbad => step_of_operands_none hs ((hop ra rb).trans ((headRR_eq_none_iff mk ra rb).mpr hbad))

/-! ### The effect -/

/-- What a write of EQUAL and a sequential ip do, and everything they leave as it was. -/
theorem setEqual_advance_effect {s t : State} {b : Bool} {n : Nat} (ht : t = (s.setEqual b).advance n) :
    t.equal = b ∧ (∀ k, k ≠ 0 → t.flags.getLsbD k = s.flags.getLsbD k) ∧ t.ip.toNat = (s.ip.toNat + n) % 65536 ∧
      SameRegs s t ∧ SameMemory s t ∧ SameLatch s t ∧ SameHook s t := by
  subst ht
  exact ⟨equal_setEqual s b, setEqual_other_bits s b, wrap16_toNat _, fun r => by simp, fun _ => rfl, ⟨rfl, rfl⟩,
    ⟨rfl, rfl⟩⟩

/-- Settles O39: the words by format RR, and the effect of writing EQUAL with the truth of the comparison. -/
theorem cmpSetsOrClearsEqual : Obligations.CmpSetsOrClearsEqual := by
  refine ⟨fun a b rest => ?_, fun a b s => ?_, ?_⟩
  · exact decodeWords_of_one_word (op := .cmp) (headRR_selector .cmp a b) rfl rest
  · obtain ⟨hequal, hframe⟩ := setEqual_advance_effect (s := s) (b := s.reg a == s.reg b) (n := 1) rfl
    exact ⟨_, rfl, (Bool.eq_iff_iff.mp hequal).trans beq_iff_eq, hframe⟩
  · exact preFaultsRR_of_headRR (op := .cmp) (fun _ _ => rfl)

end Sys2Proof.Machine
end

section
/-! PROOF. The control transfer family (42_control.md): JMP, JE and JNE (R99 to R101). First what every format W opcode
shares, then the one effect of the family: a write of ip and nothing else. -/

namespace Sys2Proof.Machine

/-! ### Format W -/

theorem headBare_zero (h : Head) : headBare h 0#4 0#4 = some h := if_pos ⟨rfl, rfl⟩

/-- The pre-execution faults of any opcode whose operand checks are format W's. -/
theorem preFaultsW_of_headBare {op : Opcode} {h : Head} (hop : ∀ ra rb, decodeOperands op ra rb = headBare h ra rb)
    (hw : h.words = 2) : PreFaultsW op.byte := by
  refine fun s ra rb hs => ⟨fun hbad => ?_, ?_⟩
  · exact step_of_operands_none hs ((hop ra rb).trans ((headBare_eq_none_iff h ra rb).mpr hbad))
  · rintro rfl rfl h4095
    exact step_of_two_words_at_4095 hs ((hop _ _).trans (headBare_zero h)) hw h4095

/-! ### The effect -/

/-- A bad ip is caught by the fetch, whichever instruction wrote it (R84, R99). -/
theorem nextFetchFaults (t : State) : NextFetchFaults t := fun hs hip => step_of_fetch_error hs (fetch_of_ge hip)

/-- Everything a write of ip leaves as it was, and the fault of the fetch that follows it. -/
theorem jumpTo_frame (s : State) (a : Word) :
    SameRegs s (s.jumpTo a) ∧ (s.jumpTo a).flags = s.flags ∧ SameMemory s (s.jumpTo a) ∧ SameLatch s (s.jumpTo a) ∧
      SameHook s (s.jumpTo a) ∧ NextFetchFaults (s.jumpTo a) :=
  ⟨jumpTo_reg s a, rfl, fun _ => rfl, ⟨rfl, rfl⟩, ⟨rfl, rfl⟩, nextFetchFaults _⟩

/-- A jump to where ip already is writes nothing new (R99). -/
theorem jumpTo_self (s : State) : s.jumpTo s.ip = s := rfl

/-- The two choices of the program counter mux are the two values of one write (R83). -/
theorem advance_eq_jumpTo (s : State) (n : Nat) : s.advance n = s.jumpTo (wrap16 (s.ip.toNat + n)) := rfl

/-- JE and JNE write ip with what the mux selects (R100, R101), as JMP does (R99). -/
theorem exec_je (addr : Word) (s : State) : exec (.je addr) s = .next (s.jumpTo (s.nextIp (.je addr))) := by
  cases he : s.equal <;> simp [exec, execJe, State.nextIp, advance_eq_jumpTo, he]

theorem exec_jne (addr : Word) (s : State) : exec (.jne addr) s = .next (s.jumpTo (s.nextIp (.jne addr))) := by
  cases he : s.equal <;> simp [exec, execJne, State.nextIp, advance_eq_jumpTo, he]

/-- The mux where it selects the word past a conditional jump, the target ignored. -/
theorem nextIp_je_not_taken {s : State} (addr : Word) (h : s.equal = false) :
    (s.nextIp (.je addr)).toNat = (s.ip.toNat + 2) % 65536 := by
  simp [State.nextIp, h]

theorem nextIp_jne_not_taken {s : State} (addr : Word) (h : s.equal = true) :
    (s.nextIp (.jne addr)).toNat = (s.ip.toNat + 2) % 65536 := by
  simp [State.nextIp, h]

/-- Settles O40: the words by format W, and the write of ip with the target alone. -/
theorem jmpSetsIp : Obligations.JmpSetsIp := by
  refine ⟨fun addr rest => ?_, fun addr s => ?_, ?_⟩
  · exact decodeWords_of_two_words (op := .jmp) (headBare_zero .jmp) rfl addr rest
  · obtain ⟨hregs, hflags, hmem, hlatch, hhook, hfetch⟩ := jumpTo_frame s addr
    exact ⟨_, rfl, rfl, hregs, hflags, hmem, hlatch, hhook, fun h => h ▸ jumpTo_self s, hfetch⟩
  · exact preFaultsW_of_headBare (op := .jmp) (fun _ _ => rfl) rfl

/-- Settles O41: the words by format W, and the write of ip with what the mux selects when EQUAL is set and clear. -/
theorem jeJumpsIfEqual : Obligations.JeJumpsIfEqual := by
  refine ⟨fun addr rest => ?_, fun addr s => ?_, rfl, ?_⟩
  · exact decodeWords_of_two_words (op := .je) (headBare_zero .je) rfl addr rest
  · exact ⟨_, exec_je addr s, fun h => if_pos h, nextIp_je_not_taken addr, jumpTo_frame s _⟩
  · exact preFaultsW_of_headBare (op := .je) (fun _ _ => rfl) rfl

/-- Settles O42: the words by format W, and the write of ip with what the mux selects when EQUAL is clear and set. -/
theorem jneJumpsIfNotEqual : Obligations.JneJumpsIfNotEqual := by
  refine ⟨fun addr rest => ?_, fun addr s => ?_, rfl, ?_⟩
  · exact decodeWords_of_two_words (op := .jne) (headBare_zero .jne) rfl addr rest
  · exact ⟨_, exec_jne addr s, fun h => if_pos h, nextIp_jne_not_taken addr, jumpTo_frame s _⟩
  · exact preFaultsW_of_headBare (op := .jne) (fun _ _ => rfl) rfl

end Sys2Proof.Machine
end

section
/-! PROOF. The exceptions family (60_exceptions.md): UnknownOpcode (R109), DivisionByZero (R111), and who can see a fault
(R118). First what all three share: a set latch stops the CPU for good (R81). -/

namespace Sys2Proof.Machine

/-! ### A set latch -/

theorem step_of_fault {s : State} {f : LatchedFault} (h : s.fault = some f) : step s = .next s :=
  step_of_not_running (by simp [(status_faulted_iff s f).mpr h])

theorem run_latch (s : State) (f : LatchedFault) (n : Nat) : Host.Core.run core n (s.latch f) = .next (s.latch f) :=
  run_of_fixed (step_of_fault (latch_fault s f)) n

theorem result_of_fault {s : State} {f : LatchedFault} (h : s.fault = some f) : s.result = .fault f := by
  simp [State.result, (status_faulted_iff s f).mpr h]

/-! ### DivisionByZero -/

theorem exec_div_of_zero (a : Reg) {b : Reg} {s : State} (h : s.reg b = 0#16) :
    exec (.div a b) s = .next (s.latch (.divisionByZero s.ip)) :=
  if_pos h

theorem exec_div_of_ne_zero (a : Reg) {b : Reg} {s : State} (h : s.reg b ≠ 0#16) :
    exec (.div a b) s = .next ((s.setReg a (aluDiv (s.reg a) (s.reg b))).advance 1) :=
  if_neg h

/-- Settles O38: the zero branch of DIV latches the fault, and a set latch stops the CPU for good. -/
theorem divByZeroIsFatal : Obligations.DivByZeroIsFatal :=
  fun a _ s hb => ⟨exec_div_of_zero a hb, run_latch s _⟩

/-! ### UnknownOpcode -/

/-- The decoder's UnknownOpcode depends on the opcode byte alone (R75). -/
theorem decodeHead_unknownOpcode_iff (ra rb : Nibble) (op b : Byte) :
    decodeHead (ra ++ rb ++ op) = .error (.unknownOpcode b) ↔ b = op ∧ ¬(0x01 ≤ op.toNat ∧ op.toNat ≤ 0x0E) := by
  have hd := decodeHead_word ⟨ra, rb, op⟩
  have hnone := ofByte_eq_none_iff op
  have hknown : (op.toNat = 0 ∨ 15 ≤ op.toNat) ↔ ¬(0x01 ≤ op.toNat ∧ op.toNat ≤ 0x0E) := by omega
  rw [show ra ++ rb ++ op = Fields.word ⟨ra, rb, op⟩ from rfl, hd, ← hknown, ← hnone]
  cases ho : Opcode.ofByte op with
  | none => simp [eq_comm]
  | some o => cases hop : decodeOperands o ra rb <;> simp [hop]

/-- The fetch of the operand word raises OutOfBoundsAccess at most (R79). -/
theorem fetchOperand_error {s : State} {h : Head} {f : LatchedFault} (e : s.fetchOperand h = .error f) :
    ∃ a, f = .outOfBoundsAccess a := by
  obtain hw | hw := words_eq_one_or_two h
  · rw [fetchOperand_one hw] at e
    cases e
  · by_cases ha : (wrap16 (s.ip.toNat + 1)).toNat < 4096
    · simp [State.fetchOperand, hw, memRead_of_lt ha] at e
    · simp only [State.fetchOperand, hw, memRead_of_ge (Nat.le_of_not_lt ha)] at e
      exact ⟨_, (Except.error.inj e).symm⟩

/-- A fetch inside memory raises UnknownOpcode exactly when the decoder does, with ip (R78, R79). -/
theorem fetch_unknownOpcode_iff {s : State} (hip : s.ip.toNat < 4096) (b : Byte) (a : Word) :
    s.fetch = .error (.unknownOpcode b a) ↔
      decodeHead (s.mem.wordAt s.ip.toNat) = .error (.unknownOpcode b) ∧ a = s.ip := by
  cases hd : decodeHead (s.mem.wordAt s.ip.toNat) with
  | error e =>
    rw [fetch_of_decode_error hip hd]
    cases e <;> simp [decodeFault, eq_comm]
  | ok h =>
    rw [fetch_of_decode_ok hip hd]
    refine iff_of_false (fun e => ?_) (by simp)
    obtain ⟨_, hf⟩ := fetchOperand_error e
    cases hf

/-- A running CPU's fetch raises UnknownOpcode exactly on an opcode byte outside 0x01 to 0x0E, with that byte and ip. -/
theorem fetch_unknownOpcode_iff_of_runningAt {s : State} {ra rb : Nibble} {op : Byte}
    (hs : s.RunningAt (ra ++ rb ++ op)) (b : Byte) (a : Word) :
    s.fetch = .error (.unknownOpcode b a) ↔ (b = op ∧ ¬(0x01 ≤ op.toNat ∧ op.toNat ≤ 0x0E)) ∧ a = s.ip := by
  obtain ⟨-, hip, hword⟩ := hs
  rw [← decodeHead_unknownOpcode_iff ra rb op b, ← hword]
  exact fetch_unknownOpcode_iff hip b a

/-- What an instruction can do to the latch: leave it, or set it to a fault of its own execution (R115). -/
theorem exec_fault_cases {i : Instr} {s t : State} (h : exec i s = .next t) :
    t.fault = s.fault ∨ (∃ a, t.fault = some (.outOfBoundsAccess a)) ∨ t.fault = some (.divisionByZero s.ip) ∨
      ∃ code, t.fault = some (.sysFault code s.ip) := by
  have hc := exec_next_cases h
  cases i with
  | lrm | srm =>
    obtain ⟨-, rfl⟩ | ⟨-, rfl⟩ := hc
    · exact .inl (by simp)
    · exact .inr (.inl ⟨_, rfl⟩)
  | div =>
    obtain ⟨-, rfl⟩ | ⟨-, rfl⟩ := hc
    · exact .inr (.inr (.inl rfl))
    · exact .inl (by simp)
  | sys =>
    obtain ⟨r, c, -, rfl⟩ | ⟨code, -, rfl⟩ := hc
    · exact .inl rfl
    · exact .inr (.inr (.inr ⟨code, rfl⟩))
  | je | jne =>
    simp only at hc
    subst hc
    exact .inl (by split <;> rfl)
  | lra | mvr | add | sub | mul | cmp | jmp | hlt =>
    simp only at hc
    subst hc
    exact .inl (by simp)

theorem exec_fault_ne_unknownOpcode {i : Instr} {s t : State} (hs : s.fault = none) (h : exec i s = .next t) (b : Byte)
    (a : Word) : t.fault ≠ some (.unknownOpcode b a) := by
  obtain hf | ⟨_, hf⟩ | hf | ⟨_, hf⟩ := exec_fault_cases h <;> simp [hf, hs]

/-- Settles O7: the fetch raises UnknownOpcode on an unknown byte and on no other, no instruction raises it, and a set
latch stops the CPU for good. -/
theorem unknownOpcodeIsFatal : Obligations.UnknownOpcodeIsFatal := by
  intro s ra rb op hs
  have hrun : s.status = .running := hs.1
  have hfetch := fetch_unknownOpcode_iff_of_runningAt hs
  refine ⟨fun hop => ⟨?_, run_latch s _⟩, fun hop t b a h hf => ?_⟩
  · exact step_of_fetch_error hrun ((hfetch op s.ip).mpr ⟨⟨rfl, hop⟩, rfl⟩)
  obtain ⟨hn, -⟩ | ⟨-, f, he, rfl⟩ | ⟨-, i, -, hx⟩ := step_next_cases h
  · exact hn hrun
  · cases hf
    obtain ⟨⟨-, hunknown⟩, -⟩ := (hfetch b a).mp he
    exact hunknown hop
  · exact exec_fault_ne_unknownOpcode ((status_running_iff s).mp hrun).1 hx b a hf

/-! ### The latch and the program -/

theorem withFault_reg (s : State) (f : Option LatchedFault) (r : Reg) :
    ({ s with fault := f } : State).reg r = s.reg r := by
  cases r <;> rfl

theorem withFault_setReg (s : State) (f : Option LatchedFault) (r : Reg) (v : Word) :
    ({ s with fault := f } : State).setReg r v = { s.setReg r v with fault := f } := by
  cases r <;> rfl

/-- The SYS request does not hold the latch, so the runtime's outcome does not depend on it (R104, R118). -/
theorem withFault_hookOutcome (s : State) (f : Option LatchedFault) :
    ({ s with fault := f } : State).hookOutcome = s.hookOutcome := rfl

/-- No instruction reads the latch (R118): with any other latch it does the same to everything else. -/
theorem exec_withFault (i : Instr) (s : State) (f : Option LatchedFault) :
    mapOutcome (fun t => { t with fault := none }) (exec i { s with fault := f }) =
      mapOutcome (fun t => { t with fault := none }) (exec i s) := by
  cases i with
  | lrm d addr =>
    by_cases ha : addr.toNat < 4096
    · rw [exec_lrm_of_lt ha, exec_lrm_of_lt ha, withFault_setReg]
      rfl
    · rw [exec_lrm_of_ge (Nat.le_of_not_lt ha), exec_lrm_of_ge (Nat.le_of_not_lt ha)]
      rfl
  | srm src addr =>
    by_cases ha : addr.toNat < 4096
    · rw [exec_srm_of_lt ha, exec_srm_of_lt ha, withFault_reg]
      rfl
    · rw [exec_srm_of_ge (Nat.le_of_not_lt ha), exec_srm_of_ge (Nat.le_of_not_lt ha)]
      rfl
  | div a b =>
    by_cases hb : s.reg b = 0#16
    · rw [exec_div_of_zero a hb, exec_div_of_zero a ((withFault_reg s f b).trans hb)]
      rfl
    · rw [exec_div_of_ne_zero a hb, exec_div_of_ne_zero a (withFault_reg s f b ▸ hb), withFault_reg, withFault_reg,
        withFault_setReg]
      rfl
  | je addr | jne addr =>
    simp only [exec_je, exec_jne]
    rfl
  | sys =>
    simp only [exec, execSys, withFault_hookOutcome]
    cases s.hookOutcome <;> rfl
  | lra d imm =>
    simp only [exec, execLra, withFault_setReg]
    rfl
  | mvr src d =>
    simp only [exec, execMvr, withFault_reg, withFault_setReg]
    rfl
  | add a b | sub a b | mul a b =>
    simp only [exec, execAdd, execSub, execMul, withFault_reg, withFault_setReg]
    rfl
  | cmp a b =>
    simp only [exec, execCmp, withFault_reg]
    rfl
  | jmp | hlt => rfl

/-- A step that ends with the latch set ends the run with the latched fault (R129). -/
theorem runLoop_of_fault {s t : State} {f : LatchedFault} (h : step s = .next t) (hf : t.fault = some f) (n : Nat) :
    runLoop (n + 1) s = .faulted f t := by
  simp [runLoop, h, result_of_fault hf]

/-- Settles O22: two latches are each as good as the state's own, a set latch stops the CPU, and the run loop answers
the fault latched. -/
theorem faultInvisibleToTheProgram : Obligations.FaultInvisibleToTheProgram :=
  ⟨fun i s f g => (exec_withFault i s f).trans (exec_withFault i s g).symm, fun _ _ => step_of_fault,
    fun _ _ _ n h hf => runLoop_of_fault h hf n⟩

end Sys2Proof.Machine
end

section
/-! PROOF. The encoding family (30_encoding.md): the decoder and the encoder are inverse to each other (R67 to R78), and
the decoder accepts the well-formed first words and no other. Both rest on one table: the head of each instruction. -/

namespace Sys2Proof
open Sys2Proof.Machine

/-! ### The head of an instruction -/

/-- What the first word of an instruction decodes to (R78). -/
def Instr.head (i : Instr) : Head :=
  match i with
  | .lrm d _ => .lrm d
  | .lra d _ => .lra d
  | .srm src _ => .srm src
  | .jmp _ => .jmp
  | .je _ => .je
  | .jne _ => .jne
  | .mvr _ _ | .add _ _ | .sub _ _ | .mul _ _ | .div _ _ | .cmp _ _ | .sys | .hlt => .whole i

theorem fields_op (i : Instr) : i.fields.op = i.opcode.byte := by cases i <;> rfl

/-- The operand checks accept what the encoder writes (R69 to R72). -/
theorem decodeOperands_fields (i : Instr) : decodeOperands i.opcode i.fields.ra i.fields.rb = some i.head := by
  cases i with
  | lrm | lra | srm => exact headRW_selector _ _
  | mvr | add | sub | mul | div | cmp => exact headRR_selector _ _ _
  | jmp | je | jne | sys | hlt => exact headBare_zero _

theorem decodeHead_fields (i : Instr) : decodeHead i.fields.word = .ok i.head := by
  have h := decodeHead_of_operands_some (decodeOperands_fields i)
  rw [← fields_op] at h
  exact h

/-- An instruction is its head, and the operand word where it has one (R66, R68). -/
theorem head_cases (i : Instr) :
    (i.operandWord = none ∧ i.head.words = 1 ∧ ∀ w, i.head.complete w = i) ∨
      ∃ w, i.operandWord = some w ∧ i.head.words = 2 ∧ i.head.complete w = i := by
  cases i with
  | mvr | add | sub | mul | div | cmp | sys | hlt => exact .inl ⟨rfl, rfl, fun _ => rfl⟩
  | lrm | lra | srm | jmp | je | jne => exact .inr ⟨_, rfl, rfl, rfl⟩

theorem words_head (i : Instr) : i.head.words = i.words := by
  obtain ⟨hw, h1, -⟩ | ⟨w, hw, h2, -⟩ := head_cases i <;> simp [Instr.words, *]

/-- A two-word head takes the word it is completed with as operand word (R68, R73). -/
theorem operandWord_complete {h : Head} (hw : h.words = 2) (w : Word) : (h.complete w).operandWord = some w := by
  cases h with
  | whole => simp [Head.words] at hw
  | lrm | lra | srm | jmp | je | jne => rfl

/-- Operands that pass the checks are those of an instruction with that opcode and those selectors. -/
theorem fields_of_decodeOperands {op : Opcode} {ra rb : Nibble} {h : Head} (e : decodeOperands op ra rb = some h)
    (w : Word) : (h.complete w).fields = ⟨ra, rb, op.byte⟩ ∧ (h.complete w).head = h := by
  cases op with
  | lrm | lra | srm =>
    obtain ⟨r, rfl, rfl, rfl⟩ := headRW_eq_some e
    exact ⟨rfl, rfl⟩
  | mvr | add | sub | mul | div | cmp =>
    obtain ⟨a, b, rfl, rfl, rfl⟩ := headRR_eq_some e
    exact ⟨rfl, rfl⟩
  | jmp | je | jne | sys | hlt =>
    obtain ⟨rfl, rfl, rfl⟩ := headBare_eq_some e
    exact ⟨rfl, rfl⟩

/-- The inverse of `decodeHead_fields`: an accepted first word has the fields of the instruction it begins. -/
theorem fields_of_decodeHead {f : Fields} {h : Head} (e : decodeHead f.word = .ok h) (w : Word) :
    (h.complete w).fields = f ∧ (h.complete w).head = h := by
  rw [decodeHead_word] at e
  split at e
  · cases e
  · next op hop =>
    split at e
    · cases e
    · next hd hoperands =>
      cases e
      rw [show f = ⟨f.ra, f.rb, op.byte⟩ by rw [← ofByte_eq_some hop]]
      exact fields_of_decodeOperands hoperands w

theorem word_fields_of_decodeHead {w0 : Word} {h : Head} (e : decodeHead w0 = .ok h) (w : Word) :
    (h.complete w).fields.word = w0 ∧ (h.complete w).head = h := by
  rw [← word_fieldsOf w0] at e
  obtain ⟨hf, hh⟩ := fields_of_decodeHead e w
  exact ⟨by rw [hf, word_fieldsOf], hh⟩

/-- The length of an instruction is that of the head the decoder reads (R66, R77). -/
theorem words_of_decodeHead {w0 : Word} {h : Head} (e : decodeHead w0 = .ok h) (w : Word) :
    (h.complete w).words = h.words := by
  rw [← words_head, (word_fields_of_decodeHead e w).2]

/-! ### The two round trips -/

theorem decodeBytes_one_word {w0 : Word} {h : Head} (e : decodeHead w0 = .ok h) (hw : h.words = 1) (rest : List Byte) :
    decodeBytes (wordsToBytes [w0] ++ rest) = .ok (h.complete 0#16, rest) := by
  simp [decodeBytes, wordsToBytes, joinBytes_hi_lo, e, hw]

theorem decodeBytes_two_words {w0 : Word} {h : Head} (e : decodeHead w0 = .ok h) (hw : h.words = 2) (w1 : Word)
    (rest : List Byte) : decodeBytes (wordsToBytes [w0, w1] ++ rest) = .ok (h.complete w1, rest) := by
  simp [decodeBytes, wordsToBytes, joinBytes_hi_lo, e, hw]

/-- Settles O1: the first word decodes to the instruction's head, and the head with its operand word is the
instruction. -/
theorem decodeInvertsEncode : Obligations.DecodeInvertsEncode := by
  intro i rest
  obtain ⟨hnone, hw, hi⟩ | ⟨w, hsome, hw, hi⟩ := head_cases i
  · rw [encodeBytes, encode, hnone]
    have hd := decodeBytes_one_word (decodeHead_fields i) hw rest
    rwa [hi] at hd
  · rw [encodeBytes, encode, hsome]
    have hd := decodeBytes_two_words (decodeHead_fields i) hw w rest
    rwa [hi] at hd

/-- What bytes that decode are: the two bytes of an accepted first word, then those of its operand word where it takes
one. -/
theorem decodeBytes_eq_ok {bs rest : List Byte} {i : Instr} (e : decodeBytes bs = .ok (i, rest)) :
    ∃ w0 h, decodeHead w0 = .ok h ∧
      ((h.words = 1 ∧ i = h.complete 0#16 ∧ bs = wordsToBytes [w0] ++ rest) ∨
        ∃ w1, h.words = 2 ∧ i = h.complete w1 ∧ bs = wordsToBytes [w0, w1] ++ rest) := by
  unfold decodeBytes at e
  split at e
  · next b0 b1 tail =>
    split at e
    · cases e
    · next h hh =>
      refine ⟨_, h, hh, ?_⟩
      split at e
      · next hw =>
        cases e
        exact .inl ⟨hw, rfl, by simp [wordsToBytes]⟩
      · next hw =>
        split at e
        · next b2 b3 tail' =>
          cases e
          exact .inr ⟨joinBytes b2 b3, (words_eq_one_or_two h).resolve_left hw, rfl, by simp [wordsToBytes]⟩
        · cases e
  · cases e

/-- Settles O2: the decoded instruction has the first word's fields and the operand word read, and these are all that
the encoder writes. -/
theorem encodeInvertsDecode : Obligations.EncodeInvertsDecode := by
  intro bs rest i e
  obtain ⟨w0, h, hd, ⟨hw, rfl, rfl⟩ | ⟨w1, hw, rfl, rfl⟩⟩ := decodeBytes_eq_ok e
  · obtain ⟨hword, hhead⟩ := word_fields_of_decodeHead hd 0#16
    obtain ⟨hnone, -⟩ | ⟨_, -, h2, -⟩ := head_cases (h.complete 0#16)
    · rw [encodeBytes, encode, hword, hnone]
      rfl
    · rw [hhead] at h2
      omega
  · rw [encodeBytes, encode, (word_fields_of_decodeHead hd w1).1, operandWord_complete hw]
    rfl

/-! ### Which first words are accepted -/

/-- The shape of every instruction's encoding, whatever its format. -/
theorem shape_statement (i : Instr) : Laws.Shape.Statement i := by
  cases i with
  | lrm d a => exact Laws.Shape.lrm d a
  | lra d a => exact Laws.Shape.lra d a
  | srm r a => exact Laws.Shape.srm r a
  | mvr a b => exact Laws.Shape.mvr a b
  | add a b => exact Laws.Shape.add a b
  | sub a b => exact Laws.Shape.sub a b
  | mul a b => exact Laws.Shape.mul a b
  | div a b => exact Laws.Shape.div a b
  | cmp a b => exact Laws.Shape.cmp a b
  | jmp a => exact Laws.Shape.jmp a
  | je a => exact Laws.Shape.je a
  | jne a => exact Laws.Shape.jne a
  | sys => exact Laws.Shape.sys
  | hlt => exact Laws.Shape.hlt

theorem legal_iff (r : Nibble) : Nibble.legal r = true ↔ 1 ≤ r.toNat ∧ r.toNat ≤ 7 := by simp [Nibble.legal]

/-- When the fields are ill formed, format by format (R69, R71, R72): as the decoder's three operand checks say it. -/
theorem wellFormed_eq_false_of_rw {f : Fields} (h : f.format = some .rw) :
    f.wellFormed = false ↔ ¬(1 ≤ f.ra.toNat ∧ f.ra.toNat ≤ 7) ∨ f.rb ≠ 0#4 := by
  rw [← legal_iff]
  cases hl : Nibble.legal f.ra <;>
    simp [Fields.wellFormed, Fields.opcodeKnown, Fields.selectorsLegal, Fields.reservedClear, h, hl]

theorem wellFormed_eq_false_of_rr {f : Fields} (h : f.format = some .rr) :
    f.wellFormed = false ↔ ¬(1 ≤ f.ra.toNat ∧ f.ra.toNat ≤ 7 ∧ 1 ≤ f.rb.toNat ∧ f.rb.toNat ≤ 7) := by
  rw [← and_assoc, ← legal_iff, ← legal_iff]
  simp [Fields.wellFormed, Fields.opcodeKnown, Fields.selectorsLegal, Fields.reservedClear, h]

theorem wellFormed_eq_false_of_bare {f : Fields} (h : f.format = some .w ∨ f.format = some .n) :
    f.wellFormed = false ↔ f.ra ≠ 0#4 ∨ f.rb ≠ 0#4 := by
  obtain h | h := h <;> by_cases ha : f.ra = 0#4 <;>
    simp [Fields.wellFormed, Fields.opcodeKnown, Fields.selectorsLegal, Fields.reservedClear, h, ha]

theorem wellFormed_eq_false_iff (op : Opcode) (ra rb : Nibble) :
    (Fields.mk ra rb op.byte).wellFormed = false ↔ decodeOperands op ra rb = none := by
  cases op with
  | lrm | lra | srm => exact (wellFormed_eq_false_of_rw rfl).trans (headRW_eq_none_iff _ ra rb).symm
  | mvr | add | sub | mul | div | cmp => exact (wellFormed_eq_false_of_rr rfl).trans (headRR_eq_none_iff _ ra rb).symm
  | jmp | je | jne => exact (wellFormed_eq_false_of_bare (.inl rfl)).trans (headBare_eq_none_iff _ ra rb).symm
  | sys | hlt => exact (wellFormed_eq_false_of_bare (.inr rfl)).trans (headBare_eq_none_iff _ ra rb).symm

/-- The format table and the opcode map know the same fourteen bytes (R74, R75). -/
theorem opcodeKnown_eq_true_iff (f : Fields) : f.opcodeKnown = true ↔ 0x01 ≤ f.op.toNat ∧ f.op.toNat ≤ 0x0E := by
  unfold Fields.opcodeKnown Fields.format
  split_ifs <;> simp <;> omega

theorem opcodeKnown_eq_true_iff_ofByte (f : Fields) : f.opcodeKnown = true ↔ ∃ op, Opcode.ofByte f.op = some op := by
  rw [opcodeKnown_eq_true_iff, ← Option.ne_none_iff_exists', Ne, ofByte_eq_none_iff]
  omega

theorem opcodeKnown_of_wellFormed {f : Fields} (h : f.wellFormed = true) : f.opcodeKnown = true := by
  simp only [Fields.wellFormed, Bool.and_eq_true] at h
  exact h.1.1

/-- The three answers of the decoder, by the checks of the fields (R71, R72, R75, R78). -/
theorem decodeHead_of_unknown {f : Fields} (h : f.opcodeKnown = false) :
    decodeHead f.word = .error (.unknownOpcode f.op) := by
  have hk := opcodeKnown_eq_true_iff f
  rw [h] at hk
  exact (decodeHead_unknownOpcode_iff f.ra f.rb f.op f.op).mpr ⟨rfl, by simpa using hk⟩

theorem decodeHead_of_illFormed {f : Fields} (hk : f.opcodeKnown = true) (hw : f.wellFormed = false) :
    decodeHead f.word = .error (.illegalOperand f.word) := by
  obtain ⟨op, hop⟩ := (opcodeKnown_eq_true_iff_ofByte f).mp hk
  obtain ⟨ra, rb, b⟩ := f
  obtain rfl : b = op.byte := ofByte_eq_some hop
  exact decodeHead_of_operands_none ((wellFormed_eq_false_iff op ra rb).mp hw)

theorem decodeHead_of_wellFormed {f : Fields} (hw : f.wellFormed = true) : ∃ h, decodeHead f.word = .ok h := by
  obtain ⟨op, hop⟩ := (opcodeKnown_eq_true_iff_ofByte f).mp (opcodeKnown_of_wellFormed hw)
  obtain ⟨ra, rb, b⟩ := f
  obtain rfl : b = op.byte := ofByte_eq_some hop
  cases ho : decodeOperands op ra rb with
  | none => simp [(wellFormed_eq_false_iff op ra rb).mpr ho] at hw
  | some h => exact ⟨h, decodeHead_of_operands_some ho⟩

/-- Settles O3: the decoder's three answers, each the only one where its condition holds. -/
theorem headAcceptedIffFieldsWellFormed : Obligations.HeadAcceptedIffFieldsWellFormed := by
  intro ra rb op
  have hunknown : decodeHead (ra ++ rb ++ op) = .error (.unknownOpcode op) ↔ op.toNat = 0 ∨ 0x0F ≤ op.toNat := by
    simp only [decodeHead_unknownOpcode_iff, true_and]
    omega
  refine ⟨?_, hunknown, ?_⟩
  all_goals
    rw [show ra ++ rb ++ op = Fields.word ⟨ra, rb, op⟩ from rfl]
    cases hk : (Fields.mk ra rb op).opcodeKnown with
    | false =>
      have hw : (Fields.mk ra rb op).wellFormed ≠ true := fun hw => by simp [opcodeKnown_of_wellFormed hw] at hk
      simp [decodeHead_of_unknown hk, hw]
    | true =>
      cases hw : (Fields.mk ra rb op).wellFormed with
      | false => simp [decodeHead_of_illFormed hk hw]
      | true =>
        obtain ⟨h, hd⟩ := decodeHead_of_wellFormed hw
        simp [hd]

/-- Settles O4: the decoder run on the words of the table. -/
theorem exampleWordsDecode : Obligations.ExampleWordsDecode :=
  ⟨rfl, rfl, rfl, rfl, rfl, rfl, rfl, rfl, rfl, rfl, rfl, rfl, rfl, rfl⟩

end Sys2Proof
end

section
/-! PROOF. The step (R79 to R84, R116 to R120): the order of its conditions, what stops a CPU, and how far an executed
instruction reaches. -/

namespace Sys2Proof.Machine

/-! ### The fetch, from the fields of the first word -/

/-- Both words inside memory: the fetch answers the head completed with the next word, which a one-word head ignores. -/
theorem fetch_of_decodeHead {s : State} {h : Head} (hip : s.ip.toNat < 4096)
    (hd : decodeHead (s.mem.wordAt s.ip.toNat) = .ok h) (hlen : s.ip.toNat + h.words ≤ 4096) :
    ∃ w, s.fetch = .ok (h.complete w) := by
  rw [fetch_of_decode_ok hip hd]
  obtain hw | hw := words_eq_one_or_two h
  · exact ⟨_, fetchOperand_one hw⟩
  · exact ⟨_, fetchOperand_two hw (by omega)⟩

/-- The instruction fetched is inside memory with all its words (R79, R84). -/
theorem fetch_ok_length {s : State} {i : Instr} (h : s.fetch = .ok i) : s.ip.toNat + i.words ≤ 4096 := by
  obtain ⟨hip, hd, hok, ⟨hw, rfl⟩ | ⟨hw, hip2, rfl⟩⟩ := fetch_ok_cases h <;>
    rw [words_of_decodeHead hok, hw] <;> omega

/-- A word in memory that a running CPU is about to fetch, as the decoder sees it. -/
theorem decodeHead_of_runningAt {s : State} {w : Word} (hs : s.RunningAt w) :
    decodeHead (s.mem.wordAt s.ip.toNat) = decodeHead w := by
  obtain ⟨-, -, hword⟩ := hs
  rw [← hword]
  rfl

theorem step_of_decode_error {s : State} {w : Word} {e : DecodeError} (hs : s.RunningAt w)
    (hd : decodeHead w = .error e) : step s = .next (s.latch (decodeFault e s.ip)) :=
  step_of_fetch_error hs.1 (fetch_of_decode_error hs.2.1 ((decodeHead_of_runningAt hs).trans hd))

/-- The format says how many words the accepted head needs (R66, R77). -/
theorem format_words_of_decodeHead {f : Fields} {h : Head} (hd : decodeHead f.word = .ok h) :
    f.format.map Format.words = some h.words := by
  obtain ⟨hf, -⟩ := fields_of_decodeHead hd 0#16
  obtain ⟨-, -, hwords, -⟩ := shape_statement (h.complete 0#16)
  rw [hf, words_of_decodeHead hd] at hwords
  exact hwords

/-! ### The step -/

theorem step_of_halted {s : State} (h : s.status = .halted) : step s = .next s := step_of_not_running (by simp [h])

theorem result_of_halted {s : State} (h : s.status = .halted) : s.result = .halted := by simp [State.result, h]

/-- Bytes in memory that are those of a word followed by others: the word in memory, and the bytes after it (R48). -/
theorem wordAt_of_bytes {m : Memory} {a : Nat} {w : Word} {tail rest : List Byte}
    (h : m.readByte (2 * a) :: m.readByte (2 * a + 1) :: tail = wordsToBytes [w] ++ rest) :
    m.wordAt a = w ∧ tail = rest := by
  simp only [wordsToBytes, List.flatMap_cons, List.flatMap_nil, List.append_nil, List.cons_append, List.nil_append,
    List.cons.injEq] at h
  obtain ⟨hhi, hlo, hrest⟩ := h
  exact ⟨by rw [Memory.wordAt, hhi, hlo, joinBytes_hi_lo], hrest⟩

theorem status_latch (s : State) (f : LatchedFault) : (s.latch f).status = .faulted f :=
  (status_faulted_iff _ f).mpr (latch_fault s f)

/-- Settles O5: the fetch reads the words that the list decoder reads. -/
theorem stepRunsTheDecodedInstruction : Obligations.StepRunsTheDecodedInstruction := by
  intro s i rest hs hbytes hlen
  refine step_of_fetch_ok hs ?_
  obtain ⟨w0, h, hd, ⟨hw, rfl, hb⟩ | ⟨w1, hw, rfl, hb⟩⟩ := decodeBytes_eq_ok hbytes <;>
    rw [words_of_decodeHead hd, hw] at hlen
  · obtain ⟨hw0, -⟩ := wordAt_of_bytes hb
    rw [fetch_of_decode_ok (by omega) (hw0.symm ▸ hd), fetchOperand_one hw]
  · obtain ⟨hw0, hb⟩ := wordAt_of_bytes (rest := wordsToBytes [w1] ++ rest) hb
    obtain ⟨hw1, -⟩ := wordAt_of_bytes (a := s.ip.toNat + 1) hb
    rw [fetch_of_decode_ok (by omega) (hw0.symm ▸ hd), fetchOperand_two hw (by omega), hw1]

/-- Settles O6: the latch and HALT by the status, the fetch of w0 by its bound, the opcode and the operands by the
decoder's three answers, the fetch of w1 by its bound, and the execution of what the fetch then answers. -/
theorem stepReportsTheFirstCondition : Obligations.StepReportsTheFirstCondition := by
  refine ⟨fun s hf => ?_, fun s hf hh => step_of_halted ((status_halted_iff s).mpr ⟨hf, hh⟩),
    fun s hs hip => step_of_fetch_error hs (fetch_of_ge hip), fun s f hs hk => ?_, fun s f hs hk hw => ?_,
    fun s f hs hw htwo hip => ?_, fun s f hs hw hlen => ?_⟩
  · obtain ⟨f, hf⟩ := Option.ne_none_iff_exists'.mp hf
    exact step_of_fault hf
  · exact step_of_decode_error hs (decodeHead_of_unknown hk)
  · exact step_of_decode_error hs (decodeHead_of_illFormed hk hw)
  all_goals
    obtain ⟨h, hd⟩ := decodeHead_of_wellFormed hw
    have hwords := format_words_of_decodeHead hd
    have hd' := (decodeHead_of_runningAt hs).trans hd
    obtain ⟨hrun, hlt, -⟩ := hs
  · rw [htwo] at hwords
    exact step_of_fetch_error hrun
      ((fetch_of_decode_ok hlt hd').trans (fetchOperand_beyond (Option.some.inj hwords).symm hip))
  · have hfits : s.ip.toNat + h.words ≤ 4096 := by
      obtain hone | hip := hlen
      · rw [hone] at hwords
        have := Option.some.inj hwords
        omega
      · have := words_eq_one_or_two h
        omega
    obtain ⟨w, hfetch⟩ := fetch_of_decodeHead hlt hd' hfits
    exact ⟨_, hfetch, (fields_of_decodeHead hd w).1, step_of_fetch_ok hrun hfetch⟩

/-- Settles O8: every next state either is the old one with the latch set or has the old latch, which was clear. -/
theorem faultEntryIsPrecise : Obligations.FaultEntryIsPrecise := by
  intro s t f hs h hf
  refine ⟨?_, result_of_fault hf⟩
  by_cases hrun : s.status = .running
  · obtain ⟨g, rfl⟩ | ⟨hnone, -⟩ := step_latch_or_nextIp hrun h
    · cases hf
      rfl
    · simp [hnone] at hf
  · rw [step_of_not_running hrun] at h
    cases h
    simp [hs] at hf

/-- Settles O9: a set latch fixes the state. -/
theorem faultedCpuIsInert : Obligations.FaultedCpuIsInert :=
  fun _ _ n hf => ⟨run_of_fixed (step_of_fault hf) n, result_of_fault hf⟩

/-- Settles O10: HALT under a clear latch fixes the state. -/
theorem haltedCpuIsInert : Obligations.HaltedCpuIsInert := by
  intro s n hf hh
  have hs : s.status = .halted := (status_halted_iff s).mpr ⟨hf, hh⟩
  exact ⟨run_of_fixed (step_of_halted hs) n, result_of_halted hs⟩

/-- What the flags read after HALT is set: the flags read before, with bit 1 (R35, R107). -/
theorem readFlags_setHalt (s : State) : s.setHalt.readFlags = s.readFlags ||| 0x0002#16 := by
  rw [State.readFlags, setHalt_flags, BitVec.and_comm, BitVec.and_or_distrib_left, BitVec.and_comm]
  rfl

/-- Settles O11: the step sets HALT and nothing else, and a halted CPU's step changes nothing. -/
theorem haltIsSignalled : Obligations.HaltIsSignalled := by
  intro s hs hf
  have ht : s.setHalt.status = .halted :=
    (status_halted_iff _).mpr ⟨((status_running_iff s).mp hs).1, halted_setHalt s⟩
  exact ⟨s.setHalt, step_of_fetch_ok hs hf, result_of_halted ht, halted_setHalt s, step_of_halted ht,
    by simp [State.snapshot, readFlags_setHalt]⟩

/-! ### The flags -/

/-- The flags word an instruction leaves, also where it faults (R36 to R38): no fault stands in CMP's or HLT's way. -/
def State.flagsAfter (s : State) (i : Instr) : Word :=
  match i with
  | .cmp a b => (s.setEqual (s.reg a == s.reg b)).flags
  | .hlt => s.setHalt.flags
  | _ => s.flags

theorem exec_flags {i : Instr} {s t : State} (h : exec i s = .next t) : t.flags = s.flagsAfter i := by
  have hc := exec_next_cases h
  cases i with
  | lrm | srm | div => obtain ⟨-, rfl⟩ | ⟨-, rfl⟩ := hc <;> simp [State.flagsAfter]
  | sys => obtain ⟨r, c, -, rfl⟩ | ⟨code, -, rfl⟩ := hc <;> rfl
  | je | jne =>
    simp only at hc
    subst hc
    split <;> rfl
  | lra | mvr | add | sub | mul | cmp | jmp | hlt =>
    simp only at hc
    subst hc
    simp [State.flagsAfter]

/-- Settles O18: the flags after each instruction, bit by bit. -/
theorem onlyCmpAndHltWriteFlags : Obligations.OnlyCmpAndHltWriteFlags := by
  intro i s t h
  rw [exec_flags h]
  cases i with
  | cmp a b =>
    exact ⟨fun k h0 _ => setEqual_other_bits s _ k h0, equal_setEqual s _, halted_setEqual s _⟩
  | hlt => exact ⟨fun k _ h1 => setHalt_other_bits s k h1, equal_setHalt s, halted_setHalt s⟩
  | lrm | lra | srm | mvr | add | sub | mul | div | jmp | je | jne | sys => exact ⟨fun _ _ _ => rfl, rfl, rfl⟩

/-- Settles O12: an instruction that latches nothing leaves HALT clear unless it is HLT. -/
theorem onlyHltOrFaultStopsTheCpu : Obligations.OnlyHltOrFaultStopsTheCpu := by
  intro s t hs h ht
  obtain ⟨hn, -⟩ | ⟨-, f, -, rfl⟩ | ⟨-, i, hi, he⟩ := step_next_cases h
  · exact absurd hs hn
  · exact .inr ⟨f, rfl, status_latch s f⟩
  obtain ⟨f, rfl⟩ | ⟨hfault, -⟩ := exec_next_latch_or_nextIp he
  · exact .inr ⟨f, rfl, status_latch s f⟩
  obtain ⟨hnone, hhalt⟩ := (status_running_iff s).mp hs
  have hnone' : t.fault = none := hfault.trans hnone
  cases i with
  | hlt =>
    have hhalt' : t.halted = true := (onlyCmpAndHltWriteFlags .hlt s t he).2.2
    exact .inl ⟨hi, (status_halted_iff t).mpr ⟨hnone', hhalt'⟩⟩
  | lrm | lra | srm | mvr | add | sub | mul | div | cmp | jmp | je | jne | sys =>
    have hhalt' : t.halted = s.halted := (onlyCmpAndHltWriteFlags _ s t he).2.2
    exact absurd ((status_running_iff t).mpr ⟨hnone', hhalt'.trans hhalt⟩) ht

/-- The mux where nothing jumps: past the instruction's words, or, for HLT, where ip is (R83, R106). -/
theorem nextIp_of_not_jump (s : State) {i : Instr} (hi : ∀ a, i ≠ .jmp a ∧ i ≠ .je a ∧ i ≠ .jne a) :
    s.nextIp i = wrap16 (s.ip.toNat + i.words) ∨ s.nextIp i = s.ip := by
  cases i with
  | jmp a => exact absurd rfl (hi a).1
  | je a => exact absurd rfl (hi a).2.1
  | jne a => exact absurd rfl (hi a).2.2
  | hlt => exact .inr rfl
  | lrm | lra | srm | mvr | add | sub | mul | div | cmp | sys => exact .inl rfl

/-- Settles O14: the fetch reads every word of the instruction, so the word past it is at most 4096 and is not
wrapped. -/
theorem instructionsExecuteInsideMemory : Obligations.InstructionsExecuteInsideMemory := by
  intro s t hs h hf
  obtain ⟨f, rfl⟩ | ⟨-, i, hi, hip⟩ := step_latch_or_nextIp hs h
  · cases hf
  have hlen := fetch_ok_length hi
  refine ⟨i, hi, hlen, fun hjump => ?_⟩
  rw [hip]
  obtain hnext | hnext := nextIp_of_not_jump s hjump
  · rw [hnext, wrap16_of_lt _ (by omega)]
    exact hlen
  · rw [hnext]
    omega

end Sys2Proof.Machine
end

section
/-! PROOF. What no instruction does: it leaves every register but its destination (R30 to R32), memory unless it is LRM,
SRM or SYS (R54), the id (R41), and latches no fault but its own (R115). From these, the machine's invariant. -/

namespace Sys2Proof.Machine

/-! ### Registers -/

/-- A write to a register leaves every register that is not the destination it writes. -/
theorem setReg_reg_of_ne_destination {s : State} {d r : Reg} (v : Word) (h : some d ≠ some r) :
    (s.setReg d v).reg r = s.reg r :=
  setReg_reg_other s d r v fun e => h (congrArg some e.symm)

/-- Settles O19: the only register an instruction's effect writes is its destination. -/
theorem onlyTheDestinationRegisterChanges : Obligations.OnlyTheDestinationRegisterChanges := by
  intro i s t r hsys h hd
  have hc := exec_next_cases h
  cases i with
  | sys => exact absurd rfl hsys
  | lrm | div =>
    obtain ⟨-, rfl⟩ | ⟨-, rfl⟩ := hc <;> simp [setReg_reg_of_ne_destination _ hd]
  | srm => obtain ⟨-, rfl⟩ | ⟨-, rfl⟩ := hc <;> simp
  | je | jne =>
    simp only at hc
    subst hc
    split <;> simp
  | lra | mvr | add | sub | mul =>
    simp only at hc
    subst hc
    simp [setReg_reg_of_ne_destination _ hd]
  | cmp | jmp | hlt =>
    simp only at hc
    subst hc
    simp

/-! ### Memory -/

theorem withMem_setReg (s : State) (m : Memory) (r : Reg) (v : Word) :
    ({ s with mem := m } : State).setReg r v = { s.setReg r v with mem := m } := by
  cases r <;> rfl

/-- Settles O20: the effects of the other eleven instructions are made of register, flag, latch and ip operations, and
these commute with replacing memory. -/
theorem otherInstructionsDoNotReachMemory : Obligations.OtherInstructionsDoNotReachMemory := by
  intro i s m hlrm hsrm hsys
  cases i with
  | lrm d a => exact absurd rfl (hlrm d a)
  | srm r a => exact absurd rfl (hsrm r a)
  | sys => exact absurd rfl hsys
  | div a b =>
    by_cases hb : s.reg b = 0#16
    · rw [exec_div_of_zero a hb, exec_div_of_zero a ((withMem_reg s m b).trans hb)]
      rfl
    · rw [exec_div_of_ne_zero a hb, exec_div_of_ne_zero a (withMem_reg s m b ▸ hb), withMem_reg, withMem_reg,
        withMem_setReg]
      rfl
  | je a | jne a =>
    simp only [exec_je, exec_jne]
    rfl
  | lra d imm =>
    simp only [exec, execLra, withMem_setReg]
    rfl
  | mvr src d =>
    simp only [exec, execMvr, withMem_reg, withMem_setReg]
    rfl
  | add a b | sub a b | mul a b =>
    simp only [exec, execAdd, execSub, execMul, withMem_reg, withMem_setReg]
    rfl
  | cmp a b =>
    simp only [exec, execCmp, withMem_reg]
    rfl
  | jmp | hlt => rfl

/-! ### The latch -/

/-- Settles O21: an instruction that latches is in the faulting branch of LRM, SRM, DIV or SYS; every other branch leaves
the clear latch. -/
theorem executionFaultsByInstruction : Obligations.ExecutionFaultsByInstruction := by
  intro i s t f hs h hf
  have hc := exec_next_cases h
  have hclear : t.fault ≠ s.fault := by simp [hs, hf]
  cases i with
  | lrm d a =>
    obtain ⟨-, rfl⟩ | ⟨ha, rfl⟩ := hc
    · exact absurd (by simp) hclear
    · exact .inl ⟨d, a, rfl, ha, (Option.some.inj hf).symm⟩
  | srm r a =>
    obtain ⟨-, rfl⟩ | ⟨ha, rfl⟩ := hc
    · exact absurd rfl hclear
    · exact .inr (.inl ⟨r, a, rfl, ha, (Option.some.inj hf).symm⟩)
  | div a b =>
    obtain ⟨hb, rfl⟩ | ⟨-, rfl⟩ := hc
    · exact .inr (.inr (.inl ⟨a, b, rfl, hb, (Option.some.inj hf).symm⟩))
    · exact absurd (by simp) hclear
  | sys =>
    obtain ⟨r, c, -, rfl⟩ | ⟨code, ho, rfl⟩ := hc
    · exact absurd rfl hclear
    · exact .inr (.inr (.inr ⟨code, rfl, ho, (Option.some.inj hf).symm⟩))
  | je | jne =>
    simp only at hc
    subst hc
    exact absurd (by split <;> rfl) hclear
  | lra | mvr | add | sub | mul | cmp | jmp | hlt =>
    simp only at hc
    subst hc
    exact absurd (by simp) hclear

/-! ### The invariant -/

/-- An instruction leaves the id, and memory in canonical form: it writes a word inside the array, or the image a hook
returns, or nothing. -/
theorem exec_keeps_cpuId_and_wf {i : Instr} {s t : State} (h : exec i s = .next t) (hwf : s.mem.wf = true) :
    t.cpuId = s.cpuId ∧ t.mem.wf = true := by
  have hc := exec_next_cases h
  cases i with
  | srm =>
    obtain ⟨ha, rfl⟩ | ⟨-, rfl⟩ := hc
    · exact ⟨rfl, wf_writeWord _ hwf ha⟩
    · exact ⟨rfl, hwf⟩
  | sys =>
    obtain ⟨r, c, -, rfl⟩ | ⟨code, -, rfl⟩ := hc
    · exact ⟨rfl, wf_ofCells c⟩
    · exact ⟨rfl, hwf⟩
  | lrm | div => obtain ⟨-, rfl⟩ | ⟨-, rfl⟩ := hc <;> simp [hwf]
  | je | jne =>
    simp only at hc
    subst hc
    split <;> exact ⟨rfl, hwf⟩
  | lra | mvr | add | sub | mul | cmp | jmp | hlt =>
    simp only at hc
    subst hc
    simp [hwf]

/-- The reserved flag bits stay 0 under every instruction (R35). -/
theorem flagsAfter_reserved {s : State} (i : Instr) (h : s.flags &&& 0xFFFC#16 = 0#16) :
    s.flagsAfter i &&& 0xFFFC#16 = 0#16 := by
  cases i with
  | cmp => exact setEqual_reserved _ h
  | hlt => exact setHalt_reserved h
  | lrm | lra | srm | mvr | add | sub | mul | div | jmp | je | jne | sys => exact h

/-- A fault is latched with HALT clear, because the CPU was running (R40). -/
theorem inv_latch {s : State} (hs : s.status = .running) (h : s.Inv) (f : LatchedFault) : (s.latch f).Inv := by
  obtain ⟨hmem, hflags, -, hid⟩ := h
  obtain ⟨-, hhalt⟩ := (status_running_iff s).mp hs
  have hhalt' : (s.latch f).halted = false := hhalt
  exact ⟨hmem, hflags, by simp [hhalt'], hid⟩

/-- An instruction of a running CPU keeps the invariant: it latches a fault, or the latch stays clear. -/
theorem inv_exec {i : Instr} {s t : State} (hs : s.status = .running) (h : s.Inv) (he : exec i s = .next t) : t.Inv := by
  obtain ⟨f, rfl⟩ | ⟨hfault, -⟩ := exec_next_latch_or_nextIp he
  · exact inv_latch hs h f
  · obtain ⟨hmem, hflags, -, hid⟩ := h
    obtain ⟨hid', hmem'⟩ := exec_keeps_cpuId_and_wf he hmem
    have hnone : t.fault = none := hfault.trans ((status_running_iff s).mp hs).1
    exact ⟨hmem', exec_flags he ▸ flagsAfter_reserved i hflags, by simp [hnone], hid'.trans hid⟩

/-- Settles O15: a step is a no-op, a fault of the fetch, or an instruction. -/
theorem stepKeepsInvariant : Obligations.StepKeepsInvariant := by
  intro s t h hstep
  obtain ⟨-, rfl⟩ | ⟨hs, f, -, rfl⟩ | ⟨hs, i, -, he⟩ := step_next_cases hstep
  · exact h
  · exact inv_latch hs h f
  · exact inv_exec hs h he

/-! ### Reset -/

/-- Settles O16: every part of the invariant evaluates at reset. -/
theorem resetMeetsInvariant : Obligations.ResetMeetsInvariant := by
  unfold Obligations.ResetMeetsInvariant
  decide

/-- Settles O17: the fields of the reset state; its memory has no cell, so every byte is the unlisted one. -/
theorem resetState : Obligations.ResetState :=
  ⟨rfl, rfl, fun r => by cases r <;> rfl, rfl, rfl, fun k => readByte_nil k, rfl, rfl⟩

/-- Settles O28: `start` on the side of its test where the count is not 1. -/
theorem otherCpuCountsAreRefused : Obligations.OtherCpuCountsAreRefused := fun _ hn => if_neg hn

end Sys2Proof.Machine
end

section
/-! PROOF. Memory in order (R59), the load of a program (R56), the snapshot (R44), and the run loop (R129, R134). -/

namespace Sys2Proof.Machine

/-- A write that succeeds is inside memory and writes the word alone (R51). -/
theorem memWrite_ok {s t : State} {a v : Word} (h : s.memWrite a v = .ok t) :
    a.toNat < 4096 ∧ t = { s with mem := s.mem.writeWord a.toNat v } := by
  by_cases ha : a.toNat < 4096
  · rw [memWrite_of_lt ha] at h
    exact ⟨ha, (Except.ok.inj h).symm⟩
  · rw [memWrite_of_ge (Nat.le_of_not_lt ha)] at h
    cases h

/-- Settles O24: inside memory by the word read after a word written, outside it by the fault of the read. -/
theorem readAfterWrite : Obligations.ReadAfterWrite := by
  intro s t a b v h
  obtain ⟨ha, rfl⟩ := memWrite_ok h
  by_cases hb : b.toNat < 4096
  · rw [memRead_of_lt hb, memRead_of_lt hb, wordAt_writeWord]
    by_cases hab : b = a
    · simp [hab]
    · simp [hab, mt BitVec.eq_of_toNat_eq hab]
  · have hab : b ≠ a := fun e => hb (e ▸ ha)
    rw [memRead_of_ge (Nat.le_of_not_lt hb), memRead_of_ge (Nat.le_of_not_lt hb), if_neg hab]

/-- Settles O25: a byte below the program's length is the program's, every other one is as it was. -/
theorem loadPlacesTheProgram : Obligations.LoadPlacesTheProgram := by
  intro s bytes hlen
  refine ⟨_, loadProgram_of_le hlen, fun k b hk => ?_, fun k hk => ?_, rfl⟩ <;> rw [readByte_writeBytes]
  · obtain ⟨hlt, rfl⟩ := List.getElem?_eq_some_iff.mp hk
    simp [hlt]
  · rw [dif_neg (by omega)]

/-- The flags word as it is read: bits 0 and 1, and no other (R35). -/
theorem readFlags_getLsbD (s : State) (k : Nat) : s.readFlags.getLsbD k = (s.flags.getLsbD k && decide (k < 2)) := by
  rw [State.readFlags, BitVec.getLsbD_and, BitVec.getLsbD_ofNat, show 3 = 2 ^ 2 - 1 from rfl,
    Nat.testBit_two_pow_sub_one]
  by_cases hk : k < 2
  · simp [hk, show k < 16 by omega]
  · simp [hk]

theorem snapshot_memory_getElem? (s : State) {k : Nat} (hk : k < 8192) :
    s.snapshot.memory[k]? = some (s.mem.readByte k) := by
  simp [State.snapshot, hk]

/-- Settles O27: the registers field by field, the flags bit by bit, the memory byte by byte. -/
theorem snapshotReportsTheState : Obligations.SnapshotReportsTheState := by
  intro s
  have hflags (k : Nat) : s.snapshot.flags.getLsbD k = (s.flags.getLsbD k && decide (k < 2)) := readFlags_getLsbD s k
  refine ⟨rfl, rfl, rfl, rfl, rfl, rfl, rfl, rfl, rfl, (hflags 0).trans (Bool.and_true _),
    (hflags 1).trans (Bool.and_true _), fun k hk => ?_, ?_, fun k hk => snapshot_memory_getElem? s hk⟩
  · rw [hflags, decide_eq_false (Nat.not_lt.mpr hk), Bool.and_false]
  · simp [State.snapshot]

/-! ### The run loop -/

theorem runLoop_of_halted {s t : State} (h : step s = .next t) (ht : t.status = .halted) (n : Nat) :
    runLoop (n + 1) s = .halted t := by
  simp [runLoop, h, result_of_halted ht]

theorem runLoop_of_running {s t : State} (h : step s = .next t) (ht : t.status = .running) (n : Nat) :
    runLoop (n + 1) s = runLoop n t := by
  simp [runLoop, h, State.result, ht]

/-- How the first step of a run under fuel continues it: it ends the run whatever fuel is left, or leaves a running CPU
that goes on with the fuel left. -/
theorem runLoop_first_step (s : State) :
    (∃ t, t.status = .halted ∧ ∀ n, runLoop (n + 1) s = .halted t) ∨
      (∃ t f, t.status = .faulted f ∧ ∀ n, runLoop (n + 1) s = .faulted f t) ∨
      (∃ t, t.status = .running ∧ ∀ n, runLoop (n + 1) s = runLoop n t) ∨
      (∃ r, ∀ n, runLoop (n + 1) s = .stuck r) ∨ ∃ r, ∀ n, runLoop (n + 1) s = .refused r := by
  cases h : step s with
  | fault r => exact .inr (.inr (.inr (.inl ⟨r, fun n => by simp [runLoop, h]⟩)))
  | refused r => exact .inr (.inr (.inr (.inr ⟨r, fun n => by simp [runLoop, h]⟩)))
  | next t =>
    cases ht : t.status with
    | halted => exact .inl ⟨t, ht, runLoop_of_halted h ht⟩
    | faulted f => exact .inr (.inl ⟨t, f, ht, runLoop_of_fault h ((status_faulted_iff t f).mp ht)⟩)
    | running => exact .inr (.inr (.inl ⟨t, ht, runLoop_of_running h ht⟩))

/-- What a result says of the status of its state; out of fuel, of a run that began with a running CPU (R129, R134). -/
def RunResult.AgreesWithStatus (r : RunResult) (startsRunning : Prop) : Prop :=
  match r with
  | .halted t => t.status = .halted
  | .faulted f t => t.status = .faulted f
  | .noResultYet t => startsRunning → t.status = .running
  | .stuck _ | .refused _ => True

theorem RunResult.AgreesWithStatus.of_holds {r : RunResult} {p q : Prop} (h : r.AgreesWithStatus p) (hp : p) :
    r.AgreesWithStatus q := by
  cases r with
  | noResultYet t => exact fun _ => h hp
  | halted | faulted | stuck | refused => exact h

theorem runLoop_agreesWithStatus (n : Nat) (s : State) : (runLoop n s).AgreesWithStatus (s.status = .running) := by
  induction n generalizing s with
  | zero => exact id
  | succ n ih =>
    obtain ⟨t, ht, h⟩ | ⟨t, f, ht, h⟩ | ⟨t, ht, h⟩ | ⟨r, h⟩ | ⟨r, h⟩ := runLoop_first_step s <;> rw [h]
    · exact ht
    · exact ht
    · exact (ih t).of_holds ht
    · trivial
    · trivial

/-- More fuel changes only the result of a run that was out of fuel (R134). -/
theorem runLoop_add (n m : Nat) (s : State) (h : ∀ t, runLoop n s ≠ .noResultYet t) :
    runLoop (n + m) s = runLoop n s := by
  induction n generalizing s with
  | zero => exact absurd rfl (h s)
  | succ n ih =>
    rw [Nat.add_right_comm]
    obtain ⟨t, -, hs⟩ | ⟨t, f, -, hs⟩ | ⟨t, -, hs⟩ | ⟨r, hs⟩ | ⟨r, hs⟩ := runLoop_first_step s <;>
      simp only [hs] at h ⊢
    exact ih t h

/-- Settles O29: the status of the final state by the agreement of every result, the same end with more fuel because
the result is not "no result yet". -/
theorem terminalOutcomeIsFinal : Obligations.TerminalOutcomeIsFinal := by
  intro n s t
  have hagrees := runLoop_agreesWithStatus n s
  refine ⟨fun h => ?_, fun f h => ?_, fun hs h => ?_⟩ <;> rw [h] at hagrees
  · exact ⟨hagrees, fun m => (runLoop_add n m s (by simp [h])).trans h⟩
  · exact ⟨hagrees, fun m => (runLoop_add n m s (by simp [h])).trans h⟩
  · exact hagrees hs

end Sys2Proof.Machine
end

section
/-! PROOF. The instructions that remain: MVR (R91), the arithmetic of R92 to R95, SYS (R103 to R105) and HLT (R106). The
words and the faults before execution are those of formats RR and N; what is left is each instruction's effect. -/

namespace Sys2Proof.Machine

/-! ### Format RR -/

/-- Settles O33: the words by format RR, the copy by the register write alone. -/
theorem mvrCopiesARegister : Obligations.MvrCopiesARegister :=
  ⟨fun src d => decodeWords_of_one_word (op := .mvr) (headRR_selector .mvr src d) rfl,
    fun _ _ _ => ⟨_, rfl, setReg_advance_effect rfl⟩, preFaultsRR_of_headRR (op := .mvr) fun _ _ => rfl⟩

/-- What an ALU result narrowed by wrap16 leaves in the destination (R97), and everything it leaves as it was. -/
theorem setReg_wrap16_advance_effect {s t : State} {d : Reg} {v n : Nat}
    (ht : t = (s.setReg d (wrap16 v)).advance n) :
    (t.reg d).toNat = v % 65536 ∧ t.ip.toNat = (s.ip.toNat + n) % 65536 ∧ SameRegsExcept d s t ∧ t.flags = s.flags ∧
      SameMemory s t ∧ SameLatch s t ∧ SameHook s t := by
  obtain ⟨hreg, hframe⟩ := setReg_advance_effect ht
  exact ⟨hreg ▸ wrap16_toNat v, hframe⟩

/-- Settles O34: the words by format RR, the sum narrowed. -/
theorem addWraps : Obligations.AddWraps :=
  ⟨fun a b => decodeWords_of_one_word (op := .add) (headRR_selector .add a b) rfl,
    fun _ _ _ => ⟨_, rfl, setReg_wrap16_advance_effect rfl⟩, preFaultsRR_of_headRR (op := .add) fun _ _ => rfl⟩

/-- Settles O35: the words by format RR, the difference narrowed. -/
theorem subWraps : Obligations.SubWraps :=
  ⟨fun a b => decodeWords_of_one_word (op := .sub) (headRR_selector .sub a b) rfl,
    fun _ _ _ => ⟨_, rfl, setReg_wrap16_advance_effect rfl⟩, preFaultsRR_of_headRR (op := .sub) fun _ _ => rfl⟩

/-- Settles O36: the words by format RR, the product narrowed. -/
theorem mulWraps : Obligations.MulWraps :=
  ⟨fun a b => decodeWords_of_one_word (op := .mul) (headRR_selector .mul a b) rfl,
    fun _ _ _ => ⟨_, rfl, setReg_wrap16_advance_effect rfl⟩, preFaultsRR_of_headRR (op := .mul) fun _ _ => rfl⟩

/-- A quotient of two words is a word: narrowing it loses nothing. -/
theorem aluDiv_toNat (a b : Word) : (aluDiv a b).toNat = a.toNat / b.toNat :=
  wrap16_of_lt _ ((Nat.div_le_self _ _).trans_lt a.isLt)

/-- The quotient is the truncated one (R95, D28). -/
theorem aluDiv_bounds {a b : Word} (hb : b ≠ 0#16) :
    (aluDiv a b).toNat * b.toNat ≤ a.toNat ∧ a.toNat < ((aluDiv a b).toNat + 1) * b.toNat := by
  have hpos : 0 < b.toNat := Nat.pos_of_ne_zero fun h => hb (BitVec.eq_of_toNat_eq h)
  rw [aluDiv_toNat, Nat.mul_comm (_ + 1)]
  exact ⟨Nat.div_mul_le_self _ _, Nat.lt_mul_div_succ _ hpos⟩

/-- Settles O37: the words by format RR, the quotient by its two bounds. -/
theorem divTruncates : Obligations.DivTruncates := by
  refine ⟨fun a b => decodeWords_of_one_word (op := .div) (headRR_selector .div a b) rfl, fun a b s hb => ?_,
    preFaultsRR_of_headRR (op := .div) fun _ _ => rfl⟩
  obtain ⟨hreg, hframe⟩ := setReg_advance_effect (s := s) (d := a) (v := aluDiv (s.reg a) (s.reg b)) (n := 1) rfl
  obtain ⟨hlo, hhi⟩ := aluDiv_bounds (a := s.reg a) hb
  exact ⟨_, exec_div_of_ne_zero a hb, by rwa [hreg], by rwa [hreg], hframe⟩

/-! ### Format N -/

/-- The pre-execution fault of any opcode whose operand checks are format N's. -/
theorem preFaultsN_of_headBare {op : Opcode} {h : Head} (hop : ∀ ra rb, decodeOperands op ra rb = headBare h ra rb) :
    PreFaultsN op.byte :=
  fun _ ra rb hs hbad => step_of_operands_none hs ((hop ra rb).trans ((headBare_eq_none_iff h ra rb).mpr hbad))

/-- Settles O46: the word by format N, and the write of HALT alone. -/
theorem hltSetsHalt : Obligations.HltSetsHalt :=
  ⟨decodeWords_of_one_word (op := .hlt) (headBare_zero _) rfl,
    fun s => ⟨_, rfl, halted_setHalt s, setHalt_other_bits s, rfl, setHalt_reg s, fun _ => rfl, ⟨rfl, rfl⟩, ⟨rfl, rfl⟩⟩,
    preFaultsN_of_headBare (op := .hlt) fun _ _ => rfl⟩

/-! ### The image a hook returns (log 4) -/

theorem ofCells_concat (cells : List Host.Cell) (c : Host.Cell) :
    Memory.ofCells (cells ++ [c]) =
      if c.1 < 8192 then (Memory.ofCells cells).writeByte c.1 c.2 else Memory.ofCells cells := by
  simp [Memory.ofCells]

/-- Of two cells for one byte the later holds, and a byte with no cell is 0x00. -/
theorem readByte_ofCells_of_lt (cells : List Host.Cell) {k : Nat} (hk : k < 8192) :
    (Memory.ofCells cells).readByte k = ((cells.filter fun c => c.1 == k).getLast?.map Prod.snd).getD 0x00#8 := by
  induction cells using List.reverseRecOn with
  | nil => rfl
  | append_singleton cells c ih =>
    rw [ofCells_concat, List.filter_append]
    by_cases hc : c.1 = k
    · simp [hc, hk, readByte_writeByte]
    · have hread : (if c.1 < 8192 then (Memory.ofCells cells).writeByte c.1 c.2 else Memory.ofCells cells).readByte k =
          (Memory.ofCells cells).readByte k := by
        split <;> simp [readByte_writeByte, Ne.symm hc]
      rw [hread, ih]
      simp [hc]

/-- A cell outside the array is none. -/
theorem readByte_ofCells_of_ge (cells : List Host.Cell) {k : Nat} (hk : 8192 ≤ k) :
    (Memory.ofCells cells).readByte k = 0x00#8 := by
  induction cells using List.reverseRecOn with
  | nil => rfl
  | append_singleton cells c ih =>
    rw [ofCells_concat]
    split
    · rw [readByte_writeByte, if_neg (by omega), ih]
    · exact ih

/-! ### SYS -/

theorem exec_sys_of_ok {s : State} {r : HookRegs} {image : List Host.Cell} (h : s.hookOutcome = .ok r image) :
    exec .sys s = .next ((s.hookReturn r image).advance 1) := by
  simp [exec, execSys, h]

theorem exec_sys_of_fail {s : State} {code : Word} (h : s.hookOutcome = .fail code) :
    exec .sys s = .next (s.latch (.sysFault code s.ip)) := by
  simp [exec, execSys, h]

theorem exec_sys_of_never {s : State} (h : s.hookOutcome = .never) : exec .sys s = .fault .sysHookBlocked := by
  simp [exec, execSys, h]

/-- Settles O43: the word by format N, the registers as the hook returns them, every byte as its cells say. -/
theorem sysCommitsTheHooksOk : Obligations.SysCommitsTheHooksOk :=
  ⟨decodeWords_of_one_word (op := .sys) (headBare_zero _) rfl,
    fun s r image h => ⟨_, exec_sys_of_ok h, fun q => by simp, fun _ => readByte_ofCells_of_lt image,
      fun _ => readByte_ofCells_of_ge image, wrap16_toNat _, rfl, ⟨rfl, rfl⟩, rfl, rfl⟩,
    preFaultsN_of_headBare (op := .sys) fun _ _ => rfl⟩

/-- Settles O44: SYS on each of the hook's two other outcomes. -/
theorem sysFailsOrBlocks : Obligations.SysFailsOrBlocks :=
  ⟨fun _ _ => exec_sys_of_fail, fun _ => exec_sys_of_never⟩

theorem hookOutcome_of_cons {s : State} {o : HookOutcome} {rest : List HookOutcome} (h : s.hookScript = o :: rest) :
    s.hookOutcome = o := by
  simp [State.hookOutcome, h]

theorem hookOutcome_of_nil {s : State} (h : s.hookScript = []) :
    s.hookOutcome = Config.sysHook s.hookDraws s.sysRequest := by
  simp [State.hookOutcome, h]

/-- Settles O45: the outcome by the state's script, and the request of the state field by field. -/
theorem sysRequestIsAnswered : Obligations.SysRequestIsAnswered :=
  ⟨fun _ _ _ => hookOutcome_of_cons,
    fun s h => ⟨s.sysRequest, hookOutcome_of_nil h, rfl, rfl, rfl, rfl, rfl, rfl, rfl, rfl, rfl, rfl, rfl, rfl⟩⟩

end Sys2Proof.Machine
end
